-- ==== Sys2Proof/Word.lean ====
section
/-! DEFINITION. The word type of the FRC-PS register window and the plain types around it. -/

namespace Sys2Proof

/-- A 32-bit register or bus word (00_scope.md R12: "every register in the window is 32 bits wide").
Bit 0 is the least significant bit (R13). -/
abbrev Word := BitVec 32

/-- One byte of a word. -/
abbrev Byte := BitVec 8

/-- The contents of the counter register CNT.  A legal counter has `W <= 22` bits (00_scope.md R7), so 22 bits hold
every legal counter; that the bits from `W` up are 0 is a clause of the state invariant (`State.Inv`). -/
abbrev CounterWord := BitVec 22

end Sys2Proof
end

