-- ==== Sys2Proof/Syntax.lean ====
section
/-! DEFINITION. The commands of the block, the registers of its window, and the steps of its agents, as syntax. -/

namespace Sys2Proof

/-- The twelve commands (30_encoding.md R64), one constructor per row of the opcode table.
`start cs` carries the 3-bit CS field, the only operand field there is (R65). -/
inductive Instr where
  | nop
  | cfg
  | start (cs : BitVec 3)
  | stop
  | select
  | tocyc
  | tous
  | gsave
  | grest
  | gen
  | gdis
  | clrerr
  deriving DecidableEq, Repr

/-- The eight registers of the window (20_memory.md R43). -/
inductive Reg where
  | cmd
  | status
  | ticks
  | est
  | sel
  | mul
  | res
  | capacity
  deriving DecidableEq, Repr

/-- One host access (00_scope.md R14, R16; 20_memory.md R44, R46, R48, R59).  Addresses are byte addresses of the host's
address space; `bytes` is the size of the access, of which the block accepts 4 only. -/
inductive Access where
  /-- `MemRead(addr, bytes)`. -/
  | read (addr bytes : Nat)
  /-- `MemWrite(addr, bytes, data)`. -/
  | write (addr bytes : Nat) (data : Word)
  /-- An instruction fetch by the host (20_memory.md R59). -/
  | fetch (addr : Nat)
  deriving DecidableEq, Repr

/-- One step of one of the four agents (00_scope.md R16; 60_exceptions.md R117). -/
inductive Event where
  /-- The host performs one bus access. -/
  | host (a : Access)
  /-- One rising edge of `clk`. -/
  | clock
  /-- Interrupt source `line` drives `irq_in[line]` to `level`. -/
  | irq (line : Nat) (level : Bool)
  /-- `rst` is driven to `level`: asserted (`true`) or released (`false`). -/
  | rst (level : Bool)
  deriving DecidableEq, Repr, Inhabited

end Sys2Proof
end

