-- ==== Sys2Proof/Config.lean ====
section
/-! DEFINITION. The implementation parameters of the block and the free values of the model. -/

namespace Sys2Proof

/-- How the host's platform maps the window (20_memory.md R55, R60). -/
inductive Mapping where
  /-- Uncached, strongly ordered device memory: what R60 requires. -/
  | device
  /-- A cached mapping (R60: a model refuses it). -/
  | cached
  /-- A write-combined mapping (R60: a model refuses it). -/
  | writeCombined
  /-- A fabric that reorders device accesses (R55: must not map the window that way). -/
  | reordering
  deriving DecidableEq, Repr

/-- The parameters of 00_scope.md R7 to R11 and the platform's mapping (R60).  They are fixed for one machine: no step
changes them.  A state carries them so that every statement about a state holds for every choice of them. -/
structure Config where
  /-- `W`, the counter's width in bits (R7). -/
  width : Nat
  /-- `DIV_SET`, the ordered division factors (R8). -/
  divSet : List Nat
  /-- `BASE`, the byte address of the window (R9). -/
  base : Nat
  /-- `N_IRQ`, the number of gated request lines (R10). -/
  nIrq : Nat
  /-- `F_CPU`, the core clock frequency, read by no rule (R11). -/
  fCpu : Nat
  /-- How the platform maps the window (R60). -/
  mapping : Mapping
  deriving DecidableEq, Repr

namespace Config

/-- This hardware's parameters: `W = 16` (R7) and `DIV_SET = (1, 8, 64, 256, 1024)` (R8) are the spec's defaults;
BASE, N_IRQ and F_CPU are OPEN in the spec.
DESIGN CHOICE (log 2): BASE = 0, N_IRQ = 32, F_CPU = 16000000 and a device mapping in `State.reset`; unsafe. -/
def defaults : Config :=
  { width := 16, divSet := [1, 8, 64, 256, 1024], base := 0, nIrq := 32, fCpu := 16000000, mapping := .device }

/-- Free value (log 4): `factor(c)` "is not defined for other `c`" than `1 <= c <= K` (00_scope.md R14). -/
opaque undefinedFactor : Nat → Nat

/-- Free value (log 3): the agent step that comes next where no announced input stands in the state.  Which agent steps
next is a draw (00_scope.md R16, R17; 60_exceptions.md R117); it is read at the state's draw counter. -/
opaque freeEvent : Nat → Event

end Config

end Sys2Proof
end

