-- ==== Sys2Proof/WellFormed.lean ====
section
/-! DEFINITION. What makes the parameters legal and a command well formed. -/

namespace Sys2Proof

namespace Config

/-- `K = |DIV_SET|` (00_scope.md R8). -/
def k (c : Config) : Nat := c.divSet.length

/-- R7: `1 <= W <= 22`. -/
def widthOk (c : Config) : Bool := decide (1 ≤ c.width) && decide (c.width ≤ 22)

/-- R8: `1 <= K <= 7`. -/
def countOk (c : Config) : Bool := decide (1 ≤ c.k) && decide (c.k ≤ 7)

/-- R8: every factor is between 1 and 65535. -/
def factorsOk (c : Config) : Bool := c.divSet.all fun d => decide (1 ≤ d) && decide (d ≤ 65535)

/-- R8: the factors strictly increase. -/
def increasing (c : Config) : Bool := decide (c.divSet.Pairwise (· < ·))

/-- R9: BASE is a multiple of 32. -/
def baseOk (c : Config) : Bool := decide (c.base % 32 = 0)

/-- R10: `1 <= N_IRQ <= 32`. -/
def linesOk (c : Config) : Bool := decide (1 ≤ c.nIrq) && decide (c.nIrq ≤ 32)

/-- The parameters satisfy every bound of 00_scope.md R7 to R10. -/
def wf (c : Config) : Bool :=
  c.widthOk && c.countOk && c.factorsOk && c.increasing && c.baseOk && c.linesOk

end Config

/-- A command is well formed for `k` division codes (30_encoding.md R63, R65): a START names code 0 or a code `1..k`. -/
def Instr.wf (k : Nat) : Instr → Bool
  | .start cs => decide (cs.toNat ≤ k)
  | .nop | .cfg | .stop | .select | .tocyc | .tous | .gsave | .grest | .gen | .gdis | .clrerr => true

end Sys2Proof
end

