-- ==== Sys2Proof/Decode.lean ====
section
/-! DEFINITION. The command word: its fields, the decoder, the encoder, and the opcode table's rows. -/

namespace Sys2Proof

/-- OP, bits 3:0 (30_encoding.md R62). -/
def fieldOp (v : Word) : Nat := (v.extractLsb' 0 4).toNat

/-- CS, bits 6:4 (R62). -/
def fieldCs (v : Word) : BitVec 3 := v.extractLsb' 4 3

/-- RSV, bits 31:7 (R62). -/
def fieldRsv (v : Word) : BitVec 25 := v.extractLsb' 7 25

/-- Why a word is illegal: the four kinds (a) to (d) of 30_encoding.md R68. -/
inductive Illegal where
  /-- (a) RSV is not 0. -/
  | reservedBits
  /-- (b) OP is one of 0xC..0xF. -/
  | reservedOp
  /-- (c) CS is not 0 and OP is not START's. -/
  | strayCs
  /-- (d) a START word with CS above K. -/
  | codeOutOfRange
  deriving DecidableEq, Repr

/-- Decoding a command word (30_encoding.md R63): a total function of the word (R72) and of the constant `k` (K),
which rejects an illegal word by the kind of R68 it falls under, in R63's order of checks. -/
def decode (k : Nat) (v : Word) : Except Illegal Instr :=
  if fieldRsv v ≠ 0 then .error .reservedBits
  else if 0xC ≤ fieldOp v then .error .reservedOp
  else if fieldOp v ≠ 0x2 ∧ fieldCs v ≠ 0 then .error .strayCs
  else if fieldOp v = 0x2 ∧ k < (fieldCs v).toNat then .error .codeOutOfRange
  else match fieldOp v with
    | 0x0 => .ok .nop
    | 0x1 => .ok .cfg
    | 0x2 => .ok (.start (fieldCs v))
    | 0x3 => .ok .stop
    | 0x4 => .ok .select
    | 0x5 => .ok .tocyc
    | 0x6 => .ok .tous
    | 0x7 => .ok .gsave
    | 0x8 => .ok .grest
    | 0x9 => .ok .gen
    | 0xA => .ok .gdis
    | 0xB => .ok .clrerr
    | _ => .error .reservedOp

/-- The OP value of a command (30_encoding.md R64). -/
def opcode : Instr → BitVec 4
  | .nop => 0x0
  | .cfg => 0x1
  | .start _ => 0x2
  | .stop => 0x3
  | .select => 0x4
  | .tocyc => 0x5
  | .tous => 0x6
  | .gsave => 0x7
  | .grest => 0x8
  | .gen => 0x9
  | .gdis => 0xA
  | .clrerr => 0xB

/-- The CS field of a command: START's operand, and 0 for every other (R65). -/
def codeField : Instr → BitVec 3
  | .start cs => cs
  | .nop | .cfg | .stop | .select | .tocyc | .tous | .gsave | .grest | .gen | .gdis | .clrerr => 0

/-- The word of a command: RSV = 0, then CS, then OP (30_encoding.md R62). -/
def encode (i : Instr) : Word := 0#25 ++ codeField i ++ opcode i

/-- One row of the opcode table (30_encoding.md R73): `(v & mask) == bits` selects the row. -/
structure OpRow where
  mnemonic : String
  bits : Word
  mask : Word
  deriving DecidableEq, Repr

/-- A word selects a row (R73). -/
def OpRow.selects (r : OpRow) (v : Word) : Bool := v &&& r.mask == r.bits

/-- The opcode table, in its order (spec/opcode_table.json; R73). -/
def opcodeRows : List OpRow :=
  [ ⟨"NOP", 0x00000000, 0xFFFFFFFF⟩, ⟨"CFG", 0x00000001, 0xFFFFFFFF⟩, ⟨"START", 0x00000002, 0xFFFFFF8F⟩,
    ⟨"STOP", 0x00000003, 0xFFFFFFFF⟩, ⟨"SELECT", 0x00000004, 0xFFFFFFFF⟩, ⟨"TOCYC", 0x00000005, 0xFFFFFFFF⟩,
    ⟨"TOUS", 0x00000006, 0xFFFFFFFF⟩, ⟨"GSAVE", 0x00000007, 0xFFFFFFFF⟩, ⟨"GREST", 0x00000008, 0xFFFFFFFF⟩,
    ⟨"GEN", 0x00000009, 0xFFFFFFFF⟩, ⟨"GDIS", 0x0000000A, 0xFFFFFFFF⟩, ⟨"CLRERR", 0x0000000B, 0xFFFFFFFF⟩ ]

/-- The mnemonic of a command, as the opcode table spells it. -/
def Instr.mnemonic : Instr → String
  | .nop => "NOP"
  | .cfg => "CFG"
  | .start _ => "START"
  | .stop => "STOP"
  | .select => "SELECT"
  | .tocyc => "TOCYC"
  | .tous => "TOUS"
  | .gsave => "GSAVE"
  | .grest => "GREST"
  | .gen => "GEN"
  | .gdis => "GDIS"
  | .clrerr => "CLRERR"

/-- The opcode table's number of a word of `nbits` bits, as the 32-bit command word: bits from `nbits` up are 0.
A command word is one 32-bit bus word, so bit `i` of the table is bit `i` of the word (30_encoding.md R69, R73). -/
def tableWord (nbits w : Nat) : Word := BitVec.ofNat 32 (w % 2 ^ nbits)

/-- The command the decoder reads from the opcode table's word, for the default factor set (K = 5). -/
def decodeTableWord (nbits w : Nat) : Option Instr :=
  match decode Config.defaults.k (tableWord nbits w) with
  | .ok i => some i
  | .error _ => none

end Sys2Proof
end

