-- ==== Sys2Proof/Machine/Operands.lean ====
section
/-! DEFINITION. The operand forms: division factors, the capacity, the fields of SEL, START's code, register offsets. -/

namespace Sys2Proof.Config

/-- `CAP = 2^W - 1` (00_scope.md R7). -/
def cap (c : Config) : Nat := 2 ^ c.width - 1

/-- `factor(c) = DIV_SET[c - 1]` for `1 <= c <= K`; not defined for other codes (00_scope.md R14, 30_encoding.md R66),
where it is the free value `undefinedFactor` (log 4). -/
def factor (c : Config) : Nat → Nat
  | 0 => undefinedFactor 0
  | n + 1 => match c.divSet[n]? with
    | some d => d
    | none => undefinedFactor (n + 1)

/-- The largest division factor, `DIV_SET[K-1]` (00_scope.md R8). -/
def maxFactor (c : Config) : Nat := c.factor c.k

/-- `SEL = (factor(code) << 16) | code` (41_selector.md R87; the fields of 10_state.md R27). -/
def selWord (c : Config) (code : Nat) : Word := BitVec.ofNat 32 ((c.factor code <<< 16) ||| code)

/-- CAPACITY reads `zext_32(CAP)` (10_state.md R35). -/
def capacityWord (c : Config) : Word := BitVec.ofNat 32 c.cap

/-- SELECT's search (41_selector.md R87): the code of the first factor `d` with `est <= CAP * d`, on exact integers
(R88); the largest code where none satisfies it (R90). -/
def selectCode (c : Config) (est : Nat) : Nat :=
  match c.divSet.findIdx? fun d => decide (est ≤ c.cap * d) with
  | some i => i + 1
  | none => c.k

end Sys2Proof.Config

namespace Sys2Proof.Machine

/-- `SEL[2:0]`, the selected code (10_state.md R27). -/
def selCs (sel : Word) : BitVec 3 := sel.extractLsb' 0 3

/-- `SEL[31:16]`, the selected factor (10_state.md R27). -/
def selFactor (sel : Word) : BitVec 16 := sel.extractLsb' 16 16

/-- The code START resolves its CS field to (30_encoding.md R65; 40_counter.md R75, R77): 0 means SEL.CS. -/
def startCode (cs : BitVec 3) (sel : Word) : BitVec 3 := if cs = 0 then selCs sel else cs

/-- The byte offset of a register in the window (20_memory.md R43). -/
def regOffset : Reg → Nat
  | .cmd => 0x00
  | .status => 0x04
  | .ticks => 0x08
  | .est => 0x0C
  | .sel => 0x10
  | .mul => 0x14
  | .res => 0x18
  | .capacity => 0x1C

/-- The register at a word offset, `bus_addr` (20_memory.md R43).  Every offset of the window is mapped. -/
def regAt : Nat → Option Reg
  | 0 => some .cmd
  | 1 => some .status
  | 2 => some .ticks
  | 3 => some .est
  | 4 => some .sel
  | 5 => some .mul
  | 6 => some .res
  | 7 => some .capacity
  | _ => none

/-- A byte address lies in the window `BASE .. BASE + 0x1F` (20_memory.md R42). -/
def inWindow (c : Config) (addr : Nat) : Bool := decide (c.base ≤ addr) && decide (addr < c.base + 32)

end Sys2Proof.Machine
end

