-- ==== Sys2Proof/Machine/State.lean ====
section
/-! DEFINITION. The state of the block with its ports and announced inputs; faults; refusals; the state after reset. -/

namespace Sys2Proof.Machine

/-- Everything the spec gives the block (10_state.md), the levels on its ports, and the inputs that are announced to it.
CMD, STATUS and CAPACITY hold no state (R34 to R36) and are computed. -/
structure State where
  /-- The implementation parameters (00_scope.md R7 to R11); no step changes them (log 1). -/
  cfg : Config
  /-- CNT, the counter register, `W` bits (10_state.md R20). -/
  cnt : CounterWord
  /-- PSC, the prescaler phase (R21). -/
  psc : BitVec 16
  /-- RUN (R22). -/
  run : Bool
  /-- CS, the code the counter runs at or last ran at (R23). -/
  cs : BitVec 3
  /-- OVF, the sticky wrap flag (R24). -/
  ovf : Bool
  /-- TICKS, the captured count (R25). -/
  ticks : Word
  /-- EST, the estimate (R26). -/
  est : Word
  /-- SEL, the selection register with its fields SEL.CS and SEL.FACTOR (R27). -/
  sel : Word
  /-- MUL, the multiplier of TOUS (R28). -/
  mul : Word
  /-- RES, the scaling result (R29). -/
  res : Word
  /-- SAT, whether the last conversion saturated (R30). -/
  sat : Bool
  /-- ILL, the sticky illegal-access flag (R31). -/
  ill : Bool
  /-- GIE, the gate's global interrupt-delivery enable (R32). -/
  gie : Bool
  /-- SAVED, the saved enable (R33). -/
  saved : Bool
  /-- The level of the `rst` port (R40). -/
  rst : Bool
  /-- The levels of the `irq_in` port, bit `i` for line `i` (R40); `N_IRQ` of them exist. -/
  irqIn : Word
  /-- The `bus_rdata` port: the word the last step read, "valid in the cycle of the read" only (R40). -/
  rdata : Option Word
  /-- The model's own: the agent steps announced to the block, the next one first (log 3). -/
  inputs : List Event
  /-- The model's own: how many free agent steps have been drawn (log 3). -/
  draws : Nat
  deriving DecidableEq, Repr

/-- What stops the machine with a fault. The block itself raises no exception (60_exceptions.md R118). -/
inductive Fault where
  /-- Raised by a host access whose first byte lies outside `BASE .. BASE + 0x1F`: the block has no other address
  (20_memory.md R42, R53).  Safe: the model stops where the host's fabric goes on (log 5). -/
  | outsideWindow (addr : Nat)
  deriving DecidableEq, Repr

/-- Host actions that have no meaning in the spec (00_scope.md R15: `refuse <Reason>`). All are safe. -/
inductive Refusal where
  /-- Raised by no arm of this model (every command has its meaning). Safe. -/
  | notModelled (mnemonic : String)
  /-- Raised by a host access that is not 4 bytes wide or not at a multiple of 4 (20_memory.md R46). Safe. -/
  | narrowOrMisalignedAccess
  /-- Raised by an instruction fetch from the window (20_memory.md R59). Safe. -/
  | fetchFromDevice
  /-- Raised by any access to the window while `rst` is high (20_memory.md R61). Safe. -/
  | accessDuringReset
  /-- Raised by a read or write of the window under a mapping that is not uncached, strongly ordered device memory
  (20_memory.md R55, R60). Safe. -/
  | notDeviceMapping
  /-- Raised by every step where the parameters break a bound of 00_scope.md R7 to R10 (92_eei_decisions.md D2: a
  counter wider than 22 bits "is refused by a model"). Safe. -/
  | unsupportedParameters
  /-- Raised by a level change on a request line the device does not have (00_scope.md R10). Safe. -/
  | noSuchLine (line : Nat)
  deriving DecidableEq, Repr

/-- The reset values of 10_state.md R41 for the parameters `c`, with `rst` released and the ports idle. -/
def State.resetWith (c : Config) : State :=
  { cfg := c
    cnt := 0, psc := 0, run := false, cs := 1, ovf := false
    ticks := 0, est := 0, sel := c.selWord 1
    mul := 0, res := 0, sat := false
    ill := false, gie := false, saved := false
    rst := false, irqIn := 0, rdata := none
    inputs := [], draws := 0 }

/-- The machine right after reset (70_reset_and_hazards.md R135, at the values of 10_state.md R41), with `rst` just
released, this hardware's default parameters, no request line asserted, and no input announced.
DESIGN CHOICE (logs 2, 3, 6): the OPEN parameters, the levels of `irq_in` and the input fields. -/
def State.reset : State := State.resetWith Config.defaults

end Sys2Proof.Machine
end

