-- ==== Sys2Proof/Machine/Flags.lean ====
section
/-! DEFINITION. The status flags: STATUS, the saturating multiply and its flag, the sticky error flag, the gate's output. -/

namespace Sys2Proof.Machine

/-- `STATUS = zext_32(CS ++ 0b00 ++ SAVED ++ GIE ++ ILL ++ SAT ++ OVF ++ RUN)` (10_state.md R34). -/
def statusWord (s : State) : Word :=
  (s.cs ++ 0#2 ++ BitVec.ofBool s.saved ++ BitVec.ofBool s.gie ++ BitVec.ofBool s.ill ++ BitVec.ofBool s.sat
    ++ BitVec.ofBool s.ovf ++ BitVec.ofBool s.run).setWidth 32

/-- `satmul32(a, b)` (43_scaler.md R103): the exact product clamped to `2^32 - 1`, and whether it was clamped. -/
def satmul32 (a b : Nat) : Word × Bool :=
  if a * b > 2 ^ 32 - 1 then (0xFFFFFFFF, true) else (BitVec.ofNat 32 (a * b), false)

/-- A conversion writes RES and SAT and nothing else (43_scaler.md R103, R110). -/
def convert (a b : Nat) (s : State) : State := { s with res := (satmul32 a b).1, sat := (satmul32 a b).2 }

/-- Set the sticky flag ILL and change nothing else (44_control.md R113; 20_memory.md R49). -/
def setIll (s : State) : State := { s with ill := true }

/-- `irq_out[i] = irq_in[i] AND GIE` for every line `i` below `N_IRQ` (42_gate.md R93). -/
def irqOut (s : State) (i : Nat) : Bool := decide (i < s.cfg.nIrq) && s.irqIn.getLsbD i && s.gie

/-- The lines that reach the host, in no order of priority: which one the host takes is its own choice
(60_exceptions.md R120). -/
def delivered (s : State) : List Nat := (List.range s.cfg.nIrq).filter (irqOut s)

end Sys2Proof.Machine
end

