-- ==== Sys2Proof/Machine/Ops.lean ====
section
/-! DEFINITION. The named operations over the registers of the window, the ports and the announced inputs.
The block takes no exception and returns from none (60_exceptions.md R118, R122, R123): there is no such operation. -/

namespace Sys2Proof.Machine

/-- The value of a register of the window (20_memory.md R44). CMD reads 0 (10_state.md R36). -/
def readReg (s : State) : Reg → Word
  | .cmd => 0
  | .status => statusWord s
  | .ticks => s.ticks
  | .est => s.est
  | .sel => s.sel
  | .mul => s.mul
  | .res => s.res
  | .capacity => s.cfg.capacityWord

/-- The byte view of the window (20_memory.md R47): byte `BASE + off + j` is bits `[8j+7:8j]` of the register at `off`.
Stated "for reference only": no access reads a byte (R46). Nothing is there outside the window. -/
def readByte (s : State) (addr : Nat) : Option Byte :=
  if inWindow s.cfg addr then
    (regAt ((addr - s.cfg.base) / 4)).map fun r => (readReg s r).extractLsb' (8 * ((addr - s.cfg.base) % 4)) 8
  else none

/-- Drive `bus_rdata` with a word that has been read (10_state.md R40). -/
def drive (v : Word) (s : State) : State := { s with rdata := some v }

/-- Every register at its reset value (10_state.md R41; 70_reset_and_hazards.md R135). The parameters, the ports and the
announced inputs are not registers and stay. -/
def resetRegisters (s : State) : State :=
  { State.resetWith s.cfg with rst := s.rst, irqIn := s.irqIn, rdata := s.rdata, inputs := s.inputs, draws := s.draws }

/-- Drive one request line to a level (10_state.md R40). -/
def setLine (line : Nat) (level : Bool) (s : State) : State :=
  { s with irqIn := if level then s.irqIn ||| BitVec.twoPow 32 line else s.irqIn &&& ~~~BitVec.twoPow 32 line }

/-- The next agent step: the first announced input, else a free one (00_scope.md R16; log 3). -/
def nextEvent (s : State) : Event :=
  match s.inputs with
  | e :: _ => e
  | [] => Config.freeEvent s.draws

/-- The state in which the next agent step is performed: its announcement, or one draw, is used up, and the read port
is no longer valid (10_state.md R40). -/
def afterEvent (s : State) : State :=
  match s.inputs with
  | _ :: rest => { s with inputs := rest, rdata := none }
  | [] => { s with draws := s.draws + 1, rdata := none }

end Sys2Proof.Machine
end

