-- ==== Sys2Proof/Machine/Control.lean ====
section
/-! DEFINITION. The control commands NOP and CLRERR, and the step of an illegal word (44_control.md). -/

namespace Sys2Proof.Machine

/-- NOP: no state changes (44_control.md R111). -/
def execNop (s : State) : Host.Outcome State Fault Refusal :=
  .next s

/-- CLRERR: clear ILL (44_control.md R112). -/
def execClrerr (s : State) : Host.Outcome State Fault Refusal :=
  .next { s with ill := false }

/-- An illegal command word of any kind: ILL is set, nothing else changes, the word is not recorded
(44_control.md R113). -/
def execIllegal (s : State) : Host.Outcome State Fault Refusal :=
  .next (setIll s)

end Sys2Proof.Machine
end

