-- ==== Sys2Proof/Machine/Counter.lean ====
section
/-! DEFINITION. The counter unit: CFG, START, STOP and the clock step (40_counter.md). -/

namespace Sys2Proof.Machine

/-- CFG: stop, zero the count and the prescaler phase, clear OVF (40_counter.md R76). -/
def execCfg (s : State) : Host.Outcome State Fault Refusal :=
  .next { s with run := false, cnt := 0, psc := 0, ovf := false }

/-- START: run at the named code, or at SEL.CS for a CS field of 0 (40_counter.md R77). -/
def execStart (cs : BitVec 3) (s : State) : Host.Outcome State Fault Refusal :=
  .next { s with cs := startCode cs s.sel, run := true }

/-- STOP: stop counting and capture the count (40_counter.md R79). -/
def execStop (s : State) : Host.Outcome State Fault Refusal :=
  .next { s with run := false, ticks := s.cnt.setWidth 32 }

/-- One tick of the counter: up by one, or from CAP to 0 with OVF set (40_counter.md R80, R82). -/
def tick (s : State) : State :=
  if s.cnt.toNat = s.cfg.cap then { s with psc := 0, cnt := 0, ovf := true } else { s with psc := 0, cnt := s.cnt + 1 }

/-- Clock step: one rising edge of `clk` while `rst` is low (40_counter.md R80). -/
def clockStep (s : State) : State :=
  if s.run then
    if s.cfg.factor s.cs.toNat ≤ s.psc.toNat + 1 then tick s else { s with psc := s.psc + 1 }
  else s

end Sys2Proof.Machine
end

