-- ==== Sys2Proof/Machine/Gate.lean ====
section
/-! DEFINITION. The interrupt gate: GSAVE, GREST, GEN, GDIS (42_gate.md). -/

namespace Sys2Proof.Machine

/-- GSAVE: save the enable and suppress delivery, in one step (42_gate.md R95). -/
def execGsave (s : State) : Host.Outcome State Fault Refusal :=
  .next { s with saved := s.gie, gie := false }

/-- GREST: restore the saved enable (42_gate.md R96). -/
def execGrest (s : State) : Host.Outcome State Fault Refusal :=
  .next { s with gie := s.saved }

/-- GEN: enable delivery (42_gate.md R97). -/
def execGen (s : State) : Host.Outcome State Fault Refusal :=
  .next { s with gie := true }

/-- GDIS: suppress delivery (42_gate.md R98). -/
def execGdis (s : State) : Host.Outcome State Fault Refusal :=
  .next { s with gie := false }

end Sys2Proof.Machine
end

