-- ==== Sys2Proof/Machine/Scaler.lean ====
section
/-! DEFINITION. The tick-to-time scaling unit: TOCYC, TOUS (43_scaler.md). -/

namespace Sys2Proof.Machine

/-- TOCYC: TICKS times the factor of the last START (43_scaler.md R104). -/
def execTocyc (s : State) : Host.Outcome State Fault Refusal :=
  .next (convert s.ticks.toNat (s.cfg.factor s.cs.toNat) s)

/-- TOUS: TICKS times MUL (43_scaler.md R106). -/
def execTous (s : State) : Host.Outcome State Fault Refusal :=
  .next (convert s.ticks.toNat s.mul.toNat s)

end Sys2Proof.Machine
end

