-- ==== Sys2Proof/Machine/Selector.lean ====
section
/-! DEFINITION. The prescaler selector: SELECT (41_selector.md). -/

namespace Sys2Proof.Machine

/-- SELECT: the smallest factor that cannot overflow for EST cycles, else the largest (41_selector.md R87). -/
def execSelect (s : State) : Host.Outcome State Fault Refusal :=
  .next { s with sel := s.cfg.selWord (s.cfg.selectCode s.est.toNat) }

end Sys2Proof.Machine
end

