-- ==== Sys2Proof/Machine/Dispatch.lean ====
section
/-! DEFINITION. The meaning of every command, one arm per constructor (30_encoding.md R63). -/

namespace Sys2Proof.Machine

def exec (i : Instr) (s : State) : Host.Outcome State Fault Refusal :=
  match i with
  | .nop => Sys2Proof.Machine.execNop s
  | .cfg => Sys2Proof.Machine.execCfg s
  | .start cs => Sys2Proof.Machine.execStart cs s
  | .stop => Sys2Proof.Machine.execStop s
  | .select => Sys2Proof.Machine.execSelect s
  | .tocyc => Sys2Proof.Machine.execTocyc s
  | .tous => Sys2Proof.Machine.execTous s
  | .gsave => Sys2Proof.Machine.execGsave s
  | .grest => Sys2Proof.Machine.execGrest s
  | .gen => Sys2Proof.Machine.execGen s
  | .gdis => Sys2Proof.Machine.execGdis s
  | .clrerr => Sys2Proof.Machine.execClrerr s

end Sys2Proof.Machine
end

