-- ==== Sys2Proof/Machine/Bus.lean ====
section
/-! DEFINITION. The register window as the host sees it, and the step of each agent (20_memory.md; 60_exceptions.md R117). -/

namespace Sys2Proof.Machine

/-- Perform a command word (30_encoding.md R63): a legal word by its command's rule, an illegal one by 44_control.md R113. -/
def perform (v : Word) (s : State) : Host.Outcome State Fault Refusal :=
  match decode s.cfg.k v with
  | .ok i => exec i s
  | .error _ => execIllegal s

/-- A 32-bit read of a register: its value goes to `bus_rdata` and no register changes (20_memory.md R44, R45). -/
def busRead (r : Reg) (s : State) : Host.Outcome State Fault Refusal :=
  .next (drive (readReg s r) s)

/-- A 32-bit write of a register (20_memory.md R48): CMD performs the word, EST and MUL store it (R50), and a write to a
read-only register only sets ILL (R49). -/
def busWrite (r : Reg) (v : Word) (s : State) : Host.Outcome State Fault Refusal :=
  match r with
  | .cmd => perform v s
  | .est => .next { s with est := v }
  | .mul => .next { s with mul := v }
  | .status | .ticks | .sel | .res | .capacity => .next (setIll s)

/-- An access the block accepts: 4 bytes at a multiple of 4 (20_memory.md R46), under a device mapping (R60); it finds the
register at its offset (R43). Otherwise it is refused. -/
def onRegister (addr bytes : Nat) (s : State) (f : Reg → State → Host.Outcome State Fault Refusal) :
    Host.Outcome State Fault Refusal :=
  if s.cfg.mapping ≠ .device then .refused .notDeviceMapping
  else if bytes ≠ 4 ∨ addr % 4 ≠ 0 then .refused .narrowOrMisalignedAccess
  else match regAt ((addr - s.cfg.base) / 4) with
    | some r => f r s
    | none => .fault (.outsideWindow addr)

/-- The address of an access. -/
def accessAddr : Access → Nat
  | .read addr _ => addr
  | .write addr _ _ => addr
  | .fetch addr => addr

/-- The host's step: one access (60_exceptions.md R117). Outside the window there is nothing (R42); during reset every
access is refused (R61), and so is an instruction fetch at any time (R59). -/
def hostAccess (a : Access) (s : State) : Host.Outcome State Fault Refusal :=
  if inWindow s.cfg (accessAddr a) = false then .fault (.outsideWindow (accessAddr a))
  else if s.rst then .refused .accessDuringReset
  else match a with
    | .read addr bytes => onRegister addr bytes s busRead
    | .write addr bytes v => onRegister addr bytes s fun r => busWrite r v
    | .fetch _ => .refused .fetchFromDevice

/-- The clock's step: nothing while `rst` is high (70_reset_and_hazards.md R135), else 40_counter.md R80. -/
def clockEdge (s : State) : Host.Outcome State Fault Refusal :=
  .next (if s.rst then s else clockStep s)

/-- An interrupt source's step: drive its own line (60_exceptions.md R117, R134), also during reset. -/
def driveLine (line : Nat) (level : Bool) (s : State) : Host.Outcome State Fault Refusal :=
  if line < s.cfg.nIrq then .next (setLine line level s) else .refused (.noSuchLine line)

/-- The reset step (70_reset_and_hazards.md R135): asserting `rst` puts every register at its reset value; releasing it
lets the block take steps again from the state it is in. -/
def driveReset (level : Bool) (s : State) : Host.Outcome State Fault Refusal :=
  .next { (if level then resetRegisters s else s) with rst := level }

/-- The step of one agent (60_exceptions.md R117). -/
def performEvent (e : Event) (s : State) : Host.Outcome State Fault Refusal :=
  match e with
  | .host a => hostAccess a s
  | .clock => clockEdge s
  | .irq line level => driveLine line level s
  | .rst level => driveReset level s

/-- One step of the block: parameters outside the spec's bounds are refused (92_eei_decisions.md D2), else the next agent
step is performed. -/
def agentStep (s : State) : Host.Outcome State Fault Refusal :=
  if s.cfg.wf then performEvent (nextEvent s) (afterEvent s) else .refused .unsupportedParameters

/-- The announced input that hands the block a command word: a 32-bit write of CMD at `BASE` (20_memory.md R43, R48). -/
def commandWrite (c : Config) (v : Word) : Event := .host (.write (c.base + regOffset .cmd) 4 v)

/-- Announce a command word as the very next step, with `rst` released so that the host may access the window. -/
def announceWord (v : Word) (s : State) : State :=
  { s with rst := false, inputs := commandWrite s.cfg v :: s.inputs }

end Sys2Proof.Machine
end

