-- ==== Sys2Proof/Machine/Step.lean ====
section
/-! DEFINITION. One step of the machine, and a command word placed where the next step takes it. -/

namespace Sys2Proof.Machine

/-- One step: the next agent step, as `agentStep` performs it (00_scope.md R16). -/
def step (s : State) : Host.Outcome State Fault Refusal := agentStep s

/-- The opcode table's word, announced as the host's very next write to CMD. The block fetches nothing (10_state.md R19): a
command word reaches it only so (log 7). -/
def State.withFetchWord (s : State) (nbits w : Nat) : State := announceWord (tableWord nbits w) s

end Sys2Proof.Machine
end

