-- ==== Sys2Proof/Machine/Assembler.lean ====
section
/-! DEFINITION. The notation of host programs: lines, pseudo-instructions and the measurement protocol
(30_encoding.md R70, R71; 70_reset_and_hazards.md R141), as lists of announced inputs. -/

namespace Sys2Proof.Machine

/-- One line of a program (30_encoding.md R70). -/
inductive Line where
  /-- `frc.<mnemonic>`: one store of the command's word to CMD. -/
  | cmd (i : Instr)
  /-- `frc.wr <reg>, <value>`. -/
  | wr (r : Reg) (v : Word)
  /-- `frc.rd <reg>`. -/
  | rd (r : Reg)
  /-- `workload <n>`: host work during which exactly `n` clock steps happen. -/
  | workload (n : Nat)
  deriving DecidableEq, Repr

/-- The inputs a line stands for (30_encoding.md R70). -/
def lineEvents (c : Config) : Line → List Event
  | .cmd i => [commandWrite c (encode i)]
  | .wr r v => [.host (.write (c.base + regOffset r) 4 v)]
  | .rd r => [.host (.read (c.base + regOffset r) 4)]
  | .workload n => List.replicate n .clock

/-- The inputs a program stands for. -/
def programEvents (c : Config) (p : List Line) : List Event := p.flatMap (lineEvents c)

/-- The pseudo-instructions (30_encoding.md R71). -/
inductive Pseudo where
  | startSel
  | arm (est : Word)
  | cycles
  | micros (tdur : Word)
  | windowOpen
  | windowClose
  deriving DecidableEq, Repr

/-- The expansions of the pseudo-instructions (30_encoding.md R71). -/
def expandPseudo : Pseudo → List Line
  | .startSel => [.cmd (.start 0)]
  | .arm est => [.wr .est est, .cmd .select]
  | .cycles => [.cmd .tocyc, .rd .res]
  | .micros tdur => [.wr .mul tdur, .cmd .tous, .rd .res]
  | .windowOpen => [.cmd .gsave, .cmd .cfg]
  | .windowClose => [.cmd .stop, .cmd .grest]

/-- Steps 1 to 7 of the required measurement sequence (70_reset_and_hazards.md R141) for an estimate and a workload during
which `n` clock steps happen. -/
def measurement (est : Word) (n : Nat) : List Line :=
  expandPseudo .windowOpen ++ expandPseudo (.arm est) ++ expandPseudo .startSel ++ [.workload n] ++
    expandPseudo .windowClose

/-- The written form of a command (30_encoding.md R70). -/
def asmText : Instr → String
  | .nop => "frc.nop"
  | .cfg => "frc.cfg"
  | .start cs => "frc.start " ++ toString cs.toNat
  | .stop => "frc.stop"
  | .select => "frc.select"
  | .tocyc => "frc.tocyc"
  | .tous => "frc.tous"
  | .gsave => "frc.gsave"
  | .grest => "frc.grest"
  | .gen => "frc.gen"
  | .gdis => "frc.gdis"
  | .clrerr => "frc.clrerr"

end Sys2Proof.Machine
end

