-- ==== Sys2Proof/Safety.lean ====
section
/-! DEFINITION. The terms the claims use: a ready block, the state invariant, what a step performs, and runs. -/

namespace Sys2Proof.Machine

/-- The block can take host accesses: legal parameters (00_scope.md R7 to R10), the required mapping (20_memory.md R60), and
`rst` low (20_memory.md R61). -/
abbrev State.Ready (s : State) : Prop := s.cfg.wf = true ∧ s.cfg.mapping = .device ∧ s.rst = false

/-- What every state of a machine that started in reset satisfies. -/
structure State.Inv (s : State) : Prop where
  /-- The parameters are legal (00_scope.md R7 to R10). -/
  params : s.cfg.wf = true
  /-- CNT has `W` bits (10_state.md R20). -/
  count : s.cnt.toNat ≤ s.cfg.cap
  /-- PSC is below the largest factor.  R21's bound `factor(CS) - 1` is for normal operation: a START while RUN = 1 may
  leave PSC above it (40_counter.md R77 case (b)). -/
  phase : s.psc.toNat < s.cfg.maxFactor
  /-- CS is a code `1..K` (10_state.md R23). -/
  code : 1 ≤ s.cs.toNat ∧ s.cs.toNat ≤ s.cfg.k
  /-- Bits [31:W] of TICKS are 0 (10_state.md R25). -/
  capture : s.ticks.toNat ≤ s.cfg.cap
  /-- SEL is the word of a code `1..K` (10_state.md R27). -/
  selection : ∃ c, 1 ≤ c ∧ c ≤ s.cfg.k ∧ s.sel = s.cfg.selWord c
  /-- Only the `N_IRQ` lines exist (00_scope.md R10). -/
  lines : s.irqIn.toNat < 2 ^ s.cfg.nIrq
  /-- While `rst` is high every register holds its reset value (70_reset_and_hazards.md R135). -/
  held : s.rst = true → resetRegisters s = s

/-- The next agent step writes `v` to the register `r`, as the block accepts a write. -/
def writes (s : State) (r : Reg) (v : Word) : Prop :=
  nextEvent s = .host (.write (s.cfg.base + regOffset r) 4 v)

/-- The next agent step hands the block the command `i`. -/
def performs (s : State) (i : Instr) : Prop := ∃ v, writes s .cmd v ∧ decode s.cfg.k v = .ok i

/-- The next agent step hands the block an illegal word, or writes a read-only register. -/
def offends (s : State) : Prop :=
  ∃ v, (writes s .cmd v ∧ ∃ e, decode s.cfg.k v = .error e) ∨ writes s .status v ∨ writes s .ticks v ∨ writes s .sel v ∨
    writes s .res v ∨ writes s .capacity v

/-- The next agent step asserts `rst`. -/
def resets (s : State) : Prop := nextEvent s = .rst true

/-- A register the bus cannot write (20_memory.md R49). -/
def Reg.readOnly : Reg → Bool
  | .status | .ticks | .sel | .res | .capacity => true
  | .cmd | .est | .mul => false

/-- The window registers whose read value a command can change. -/
def changedRegs : Instr → List Reg
  | .nop => []
  | .cfg | .start _ | .gsave | .grest | .gen | .gdis | .clrerr => [.status]
  | .stop => [.status, .ticks]
  | .select => [.sel]
  | .tocyc | .tous => [.status, .res]

/-- The two states agree on the counter unit: CNT, PSC, RUN, CS, OVF and TICKS (40_counter.md R85, R86). -/
def SameCounter (s t : State) : Prop :=
  t.cnt = s.cnt ∧ t.psc = s.psc ∧ t.run = s.run ∧ t.cs = s.cs ∧ t.ovf = s.ovf ∧ t.ticks = s.ticks

/-- The two states agree on the selector and the scaler: EST, SEL, MUL, RES and SAT. -/
def SameOperands (s t : State) : Prop :=
  t.est = s.est ∧ t.sel = s.sel ∧ t.mul = s.mul ∧ t.res = s.res ∧ t.sat = s.sat

/-- The two states agree on the gate: GIE and SAVED. -/
def SameGate (s t : State) : Prop := t.gie = s.gie ∧ t.saved = s.saved

/-- The two states agree on everything that is no register: the parameters, the ports and the announced inputs. -/
def SamePorts (s t : State) : Prop :=
  t.cfg = s.cfg ∧ t.rst = s.rst ∧ t.irqIn = s.irqIn ∧ t.rdata = s.rdata ∧ t.inputs = s.inputs ∧ t.draws = s.draws

/-- `n` steps, stopping at the first fault or refusal. -/
def runSteps : Nat → State → Host.Outcome State Fault Refusal
  | 0, s => .next s
  | n + 1, s => match step s with
    | .next t => runSteps n t
    | .fault f => .fault f
    | .refused r => .refused r

/-- `n` clock steps (40_counter.md R80). -/
def clockSteps : Nat → State → State
  | 0, s => s
  | n + 1, s => clockSteps n (clockStep s)

/-- Apply a change of state to an outcome. -/
def mapNext (f : State → State) : Host.Outcome State Fault Refusal → Host.Outcome State Fault Refusal
  | .next t => .next (f t)
  | .fault e => .fault e
  | .refused r => .refused r

end Sys2Proof.Machine
end

