-- ==== Sys2Proof/Certificates/Slice0/Obligations.lean ====
section
/-! DEFINITION. The statements for the provers, from the spec's numbered rules. -/

open Sys2Proof Sys2Proof.Machine

/-! ### Encoding -/

/-- 30_encoding.md R64: every listed word decodes to its command, and OP 0xC..0xF is illegal, for the default K = 5. -/
def Obligations.ListedWordsDecodeToTheirCommands : Prop :=
  (∀ p ∈ ([(0x00000000, .nop), (0x00000001, .cfg), (0x00000002, .start 0), (0x00000012, .start 1),
      (0x00000022, .start 2), (0x00000032, .start 3), (0x00000042, .start 4), (0x00000052, .start 5),
      (0x00000003, .stop), (0x00000004, .select), (0x00000005, .tocyc), (0x00000006, .tous), (0x00000007, .gsave),
      (0x00000008, .grest), (0x00000009, .gen), (0x0000000A, .gdis), (0x0000000B, .clrerr)] : List (Word × Instr)),
    decode 5 p.1 = .ok p.2) ∧
  ∀ v ∈ ([0x0000000C, 0x0000000D, 0x0000000E, 0x0000000F] : List Word), ∃ e, decode 5 v = .error e

/-- Decoding a well-formed command's word gives the command back, for every K (30_encoding.md R62 to R67). -/
def Obligations.DecodeOfEncodeIsTheCommand : Prop :=
  ∀ (k : Nat) (i : Instr), i.wf k = true → decode k (encode i) = .ok i

/-- A word that decodes is the word of a well-formed command: every bit of it counts (30_encoding.md R63, R68). -/
def Obligations.EncodeOfDecodeIsTheWord : Prop :=
  ∀ (k : Nat) (v : Word) (i : Instr), decode k v = .ok i → encode i = v ∧ i.wf k = true

/-- 30_encoding.md R68: exactly the words of (a) to (d) are illegal, and an illegal word performed by any state sets ILL and
nothing else; every other word is performed as the one command it decodes to. The fields are read off the word's value. -/
def Obligations.IllegalWordsAreExactlyTheFourKinds : Prop :=
  ∀ (s : State) (v : Word),
    ((v.toNat / 2 ^ 7 ≠ 0 ∨ 0xC ≤ v.toNat % 2 ^ 4 ∨ (v.toNat % 2 ^ 4 ≠ 0x2 ∧ v.toNat / 2 ^ 4 % 2 ^ 3 ≠ 0) ∨
        (v.toNat % 2 ^ 4 = 0x2 ∧ s.cfg.k < v.toNat / 2 ^ 4 % 2 ^ 3)) →
      (∃ e, decode s.cfg.k v = .error e) ∧ perform v s = .next { s with ill := true }) ∧
    (¬(v.toNat / 2 ^ 7 ≠ 0 ∨ 0xC ≤ v.toNat % 2 ^ 4 ∨ (v.toNat % 2 ^ 4 ≠ 0x2 ∧ v.toNat / 2 ^ 4 % 2 ^ 3 ≠ 0) ∨
        (v.toNat % 2 ^ 4 = 0x2 ∧ s.cfg.k < v.toNat / 2 ^ 4 % 2 ^ 3)) →
      ∃ i, decode s.cfg.k v = .ok i ∧ perform v s = exec i s)

/-- The spec's derived count (30_encoding.md R72): for `k` codes, `k <= 7`, exactly `11 + (k + 1)` words are legal. -/
def Obligations.LegalWordsNumberElevenPlusCodes : Prop :=
  ∀ k : Nat, k ≤ 7 → ∃ l : List Word, l.Nodup ∧ l.length = 11 + (k + 1) ∧ ∀ v, v ∈ l ↔ ∃ i, decode k v = .ok i

/-- 30_encoding.md R73: the table has one row per command, with the stated masks; no word selects two rows; a word selects the
row of the command it decodes to; and a word that selects a row decodes to that row's command with the CS field of bits [6:4],
for START if and only if `cs <= K`. -/
def Obligations.OpcodeTableRowsSelectTheDecodedCommand : Prop :=
  opcodeRows.length = 12 ∧
  (∀ r ∈ opcodeRows, r.mask = if r.mnemonic = "START" then 0xFFFFFF8F else 0xFFFFFFFF) ∧
  (∀ (v : Word), ∀ r ∈ opcodeRows, ∀ r' ∈ opcodeRows, r.selects v = true → r'.selects v = true → r = r') ∧
  (∀ (k : Nat) (v : Word) (i : Instr), decode k v = .ok i →
    ∃ r ∈ opcodeRows, r.mnemonic = i.mnemonic ∧ r.selects v = true) ∧
  ∀ (k : Nat) (v : Word), ∀ r ∈ opcodeRows, r.selects v = true →
    ((r.mnemonic = "START" → v.toNat / 2 ^ 4 % 2 ^ 3 ≤ k) ↔
      ∃ i, decode k v = .ok i ∧ i.mnemonic = r.mnemonic ∧ (codeField i).toNat = v.toNat / 2 ^ 4 % 2 ^ 3)

/-! ### The step -/

/-- A step runs the command the host writes to CMD: `exec` of the decoded command, at the state in which the announced write
is used up and the read port is idle (20_memory.md R48; 10_state.md R19). -/
def Obligations.StepRunsTheCommandWrittenToCmd : Prop :=
  ∀ (s : State) (v : Word) (i : Instr) (rest : List Event), s.Ready →
    s.inputs = .host (.write s.cfg.base 4 v) :: rest → decode s.cfg.k v = .ok i →
    step s = exec i { s with inputs := rest, rdata := none }

/-- A step on a write of an illegal word to CMD sets ILL and changes no other register and no output line, also while the
counter runs and also when ILL is already 1 (44_control.md R113). -/
def Obligations.StepOnIllegalWordOnlySetsIll : Prop :=
  ∀ (s : State) (v : Word) (e : Illegal) (rest : List Event), s.Ready →
    s.inputs = .host (.write s.cfg.base 4 v) :: rest → decode s.cfg.k v = .error e →
    step s = .next { s with inputs := rest, rdata := none, ill := true }

/-- 44_control.md R116: a command written to CMD completes in its one step, and a read issued right after it sees its full
effect: the register's value in the very state the command's `exec` gives. -/
def Obligations.CommandCompletesInOneStepAndIsSeenByTheNextRead : Prop :=
  ∀ (s : State) (i : Instr) (r : Reg) (rest : List Event), s.Ready → i.wf s.cfg.k = true →
    s.inputs = .host (.write s.cfg.base 4 (encode i)) :: .host (.read (s.cfg.base + regOffset r) 4) :: rest →
    ∃ t, exec i s = .next t ∧
      runSteps 2 s = .next { t with inputs := rest, rdata := some (readReg t r) }

/-- Every step takes exactly one agent step and never changes the parameters (00_scope.md R7 to R11, R16). That the agent
step is the first announced input, else a draw, is the model's choice (log 3). -/
def Obligations.StepTakesOneInputAndKeepsParameters : Prop :=
  ∀ s t : State, step s = .next t → t.cfg = s.cfg ∧ t.inputs = s.inputs.tail ∧
    t.draws = if s.inputs = [] then s.draws + 1 else s.draws

/-- Nothing the block can do is refused: with legal parameters and the device mapping, a command or a 32-bit aligned access of
the window while `rst` is low, a clock edge, a level change on a line that exists and a change of `rst` all give a next state
(60_exceptions.md R117, R118, R131). A clock edge while `rst` is high is included: there "Clock steps change nothing"
(70_reset_and_hazards.md R135), and that it and a line change are steps during reset is deduced (log 11). -/
def Obligations.EveryEnabledAgentStepCompletes : Prop :=
  ∀ (s : State) (e : Event) (rest : List Event), s.cfg.wf = true → s.cfg.mapping = .device → s.inputs = e :: rest →
    ((s.rst = false ∧ ∃ r, e = .host (.read (s.cfg.base + regOffset r) 4) ∨
        ∃ v, e = .host (.write (s.cfg.base + regOffset r) 4 v)) ∨
      e = .clock ∨ (∃ l b, l < s.cfg.nIrq ∧ e = .irq l b) ∨ ∃ b, e = .rst b) →
    ∃ t, step s = .next t

/-- Where a step stops: a fault only for an access outside the window; a refusal only for parameters out of bounds, an access
while `rst` is high, an instruction fetch, a mapping that is not device memory, an access that is narrow or misaligned, or a
line that does not exist (20_memory.md R46, R59, R60, R61; 60_exceptions.md R118). No command stops. The model's choices here: the
fault (log 5), the refusal of parameters out of bounds (log 1) and of a missing line (log 15), which reason is named where one
access offends twice (log 12), and that exec of a START with a code above K, which no word decodes to, goes on (log 19). -/
def Obligations.StepStopsOnlyForMeaninglessHostActions : Prop :=
  (∀ (s : State) (f : Fault), step s = .fault f →
    ∃ a, nextEvent s = .host a ∧ inWindow s.cfg (accessAddr a) = false) ∧
  (∀ (s : State) (r : Refusal), step s = .refused r →
    (r = .unsupportedParameters ∧ s.cfg.wf = false) ∨
    (r = .accessDuringReset ∧ s.rst = true ∧ ∃ a, nextEvent s = .host a) ∨
    (r = .fetchFromDevice ∧ ∃ addr, nextEvent s = .host (.fetch addr)) ∨
    (r = .notDeviceMapping ∧ s.cfg.mapping ≠ .device ∧ ∃ a, nextEvent s = .host a) ∨
    (r = .narrowOrMisalignedAccess ∧ ∃ addr n, (n ≠ 4 ∨ addr % 4 ≠ 0) ∧
      (nextEvent s = .host (.read addr n) ∨ ∃ v, nextEvent s = .host (.write addr n v))) ∨
    (∃ l b, r = .noSuchLine l ∧ nextEvent s = .irq l b ∧ s.cfg.nIrq ≤ l)) ∧
  ∀ (i : Instr) (s : State), ∃ t, exec i s = .next t

/-! ### The register window -/

/-- 20_memory.md R44: a read of each offset returns the register there and changes no state. -/
def Obligations.ReadReturnsTheRegisterAtItsOffset : Prop :=
  ∀ (s : State) (off : Nat) (v : Word) (rest : List Event), s.Ready →
    (off, v) ∈ [(0x00, 0x00000000#32), (0x04, statusWord s), (0x08, s.ticks), (0x0C, s.est), (0x10, s.sel), (0x14, s.mul),
      (0x18, s.res), (0x1C, BitVec.ofNat 32 (2 ^ s.cfg.width - 1))] →
    s.inputs = .host (.read (s.cfg.base + off) 4) :: rest →
    step s = .next { s with inputs := rest, rdata := some v }

/-- 10_state.md R34: the layout of STATUS, as its value and bit by bit, and its value after reset. -/
def Obligations.StatusHoldsTheFlagsAndTheCode : Prop :=
  (∀ s : State, (statusWord s).toNat = s.run.toNat + 2 * s.ovf.toNat + 4 * s.sat.toNat + 8 * s.ill.toNat +
      16 * s.gie.toNat + 32 * s.saved.toNat + 256 * s.cs.toNat) ∧
  (∀ s : State, (statusWord s).getLsbD 0 = s.run ∧ (statusWord s).getLsbD 1 = s.ovf ∧ (statusWord s).getLsbD 2 = s.sat ∧
      (statusWord s).getLsbD 3 = s.ill ∧ (statusWord s).getLsbD 4 = s.gie ∧ (statusWord s).getLsbD 5 = s.saved ∧
      (statusWord s).extractLsb' 6 2 = 0 ∧ (statusWord s).extractLsb' 8 3 = s.cs ∧
      (statusWord s).extractLsb' 11 21 = 0) ∧
  statusWord State.reset = 0x00000100

/-- 20_memory.md R45: a read has no side effect, and two reads of one register with only reads and interrupt-line steps
between them (no command, write, clock step or reset) return the same value: such a step leaves every register's read
value, and CNT and PSC, as they were. -/
def Obligations.ReadsHaveNoSideEffect : Prop :=
  (∀ s t : State, step s = .next t →
    ((∃ addr n, nextEvent s = .host (.read addr n)) ∨ ∃ l b, nextEvent s = .irq l b) →
    (∀ r, readReg t r = readReg s r) ∧ SameCounter s t ∧ SameOperands s t ∧ SameGate s t ∧ t.ill = s.ill) ∧
  ∀ (s : State) (r : Reg) (mid : List Event) (rest : List Event), s.Ready →
    (∀ e ∈ mid, (∃ q, e = .host (.read (s.cfg.base + regOffset q) 4)) ∨ ∃ l b, l < s.cfg.nIrq ∧ e = .irq l b) →
    s.inputs = .host (.read (s.cfg.base + regOffset r) 4) :: mid ++ .host (.read (s.cfg.base + regOffset r) 4) :: rest →
    ∃ t u, runSteps 1 s = .next t ∧ runSteps (mid.length + 2) s = .next u ∧ t.rdata = u.rdata ∧
      t.rdata = some (readReg s r)

/-- 20_memory.md R49: a write to a read-only register discards its data and changes nothing but ILL. -/
def Obligations.WriteToReadOnlyRegisterOnlySetsIll : Prop :=
  ∀ (s : State) (off : Nat) (v : Word) (rest : List Event), s.Ready → off ∈ [0x04, 0x08, 0x10, 0x18, 0x1C] →
    s.inputs = .host (.write (s.cfg.base + off) 4 v) :: rest →
    step s = .next { s with inputs := rest, rdata := none, ill := true }

/-- 20_memory.md R50: a write to EST or MUL stores all 32 bits of any data, with no check, and starts nothing. -/
def Obligations.WriteToEstOrMulStoresEveryWord : Prop :=
  ∀ (s : State) (v : Word) (rest : List Event), s.Ready →
    (s.inputs = .host (.write (s.cfg.base + 0x0C) 4 v) :: rest →
      step s = .next { s with inputs := rest, rdata := none, est := v }) ∧
    (s.inputs = .host (.write (s.cfg.base + 0x14) 4 v) :: rest →
      step s = .next { s with inputs := rest, rdata := none, mul := v })

/-- The refusals of the window: every access during reset (20_memory.md R61), every instruction fetch (R59), every read or
write that is not 4 bytes wide or not at a multiple of 4 (R46), each for an address in the window. Where one access offends
twice, the reason named is the model's choice (log 12). -/
def Obligations.MeaninglessWindowAccessesAreRefused : Prop :=
  ∀ (s : State) (a : Access) (rest : List Event), s.cfg.wf = true → s.cfg.mapping = .device →
    s.inputs = .host a :: rest → s.cfg.base ≤ accessAddr a → accessAddr a < s.cfg.base + 0x20 →
    (s.rst = true → step s = .refused .accessDuringReset) ∧
    (s.rst = false → (∃ addr, a = .fetch addr) → step s = .refused .fetchFromDevice) ∧
    (s.rst = false → (∃ addr n, (n ≠ 4 ∨ addr % 4 ≠ 0) ∧ (a = .read addr n ∨ ∃ v, a = .write addr n v)) →
      step s = .refused .narrowOrMisalignedAccess)

/-- The byte view of 20_memory.md R47: byte `j` of the register at `off` is bits `[8j+7:8j]`, at `BASE + off + j`, and there is
no byte outside the window. -/
def Obligations.WindowBytesAreLittleEndian : Prop :=
  ∀ s : State, (∀ (r : Reg) (j : Nat), j < 4 →
      readByte s (s.cfg.base + regOffset r + j) = some (BitVec.ofNat 8 ((readReg s r).toNat / 2 ^ (8 * j)))) ∧
    ∀ a, (a < s.cfg.base ∨ s.cfg.base + 32 ≤ a) → readByte s a = none

/-- The frame of every command in the window, in the byte view of 20_memory.md R47: each byte outside the registers the command
can change reads as before. `changedRegs` names them: STATUS for CFG and START (40_counter.md R76, R77), the gate commands
(42_gate.md R95 to R98) and CLRERR (44_control.md R112); STATUS and TICKS for STOP (40_counter.md R79); SEL for SELECT
(41_selector.md R87); STATUS and RES for TOCYC and TOUS (43_scaler.md R110); none for NOP (44_control.md R111). -/
def Obligations.CommandsKeepTheOtherWindowBytes : Prop :=
  ∀ (i : Instr) (s t : State) (a : Nat), exec i s = .next t →
    (∀ r ∈ changedRegs i, a < s.cfg.base + regOffset r ∨ s.cfg.base + regOffset r + 4 ≤ a) → readByte t a = readByte s a

/-! ### The commands -/

/-- 40_counter.md R76: CFG. Its word; what it writes and that it writes nothing else; and a clock edge in the same cycle,
which comes before it, is lost. -/
def Obligations.CfgStopsAndZeroesTheCounter : Prop :=
  encode .cfg = 0x00000001 ∧
  (∀ s : State, exec .cfg s = .next { s with run := false, cnt := 0, psc := 0, ovf := false }) ∧
  ∀ s : State, exec .cfg (clockStep s) = exec .cfg s

/-- START (40_counter.md R77, R75): its word; the code is SEL.CS for a CS field of 0, else the field; nothing else is written,
so CNT, PSC and OVF stay; while running, a PSC at or past the new factor ticks on the next clock edge; the edge before a START
of a stopped counter is not counted; and a field above K is illegal. That exec alone, given such a field, writes
that code is the model's choice (log 19): R77 says that it never reaches the rule, and no word decodes to it. -/
def Obligations.StartRunsAtTheNamedOrSelectedCode : Prop :=
  (∀ cs : BitVec 3, (encode (.start cs)).toNat = 0x2 + 2 ^ 4 * cs.toNat) ∧
  (∀ (s : State), exec (.start 0) s = .next { s with cs := s.sel.extractLsb' 0 3, run := true }) ∧
  (∀ (s : State) (cs : BitVec 3), cs ≠ 0 → exec (.start cs) s = .next { s with cs := cs, run := true }) ∧
  (∀ (s t : State) (cs : BitVec 3), exec (.start cs) s = .next t → t.cfg.factor t.cs.toNat ≤ s.psc.toNat + 1 →
    clockStep t = tick t ∧ (clockStep t).psc = 0) ∧
  (∀ (s : State) (cs : BitVec 3), s.run = false → exec (.start cs) (clockStep s) = exec (.start cs) s) ∧
  ∀ (s : State) (cs : BitVec 3), s.cfg.k < cs.toNat → perform (encode (.start cs)) s = .next { s with ill := true }

/-- STOP (40_counter.md R79): its word; RUN is cleared and TICKS captures CNT; nothing else is written; a second STOP
captures the same count; after a CFG it captures 0; and an edge before it is in the capture. -/
def Obligations.StopCapturesTheCount : Prop :=
  encode .stop = 0x00000003 ∧
  (∀ s : State, ∃ t, exec .stop s = .next t ∧ t = { s with run := false, ticks := t.ticks } ∧
    t.ticks.toNat = s.cnt.toNat ∧ exec .stop t = .next t) ∧
  (∀ s t u : State, exec .cfg s = .next t → exec .stop t = .next u → u.ticks = 0) ∧
  ∀ s t : State, exec .stop (clockStep s) = .next t → t.ticks.toNat = (clockStep s).cnt.toNat

/-- SELECT (41_selector.md R87): its word; it writes SEL only, with the code it searches for and that code's factor, for every
legal parameter set; and no flag. -/
def Obligations.SelectWritesTheChosenCodeAndFactor : Prop :=
  encode .select = 0x00000004 ∧
  ∀ s : State, s.cfg.wf = true → ∃ t, exec .select s = .next t ∧ t = { s with sel := t.sel } ∧
    (selCs t.sel).toNat = s.cfg.selectCode s.est.toNat ∧
    (selFactor t.sel).toNat = s.cfg.factor (s.cfg.selectCode s.est.toNat) ∧ t.sel.extractLsb' 3 13 = 0

/-- 43_scaler.md R103: the saturating multiply, and that TOCYC and TOUS write its value to RES and its flag to SAT. -/
def Obligations.ConversionsClampTheExactProduct : Prop :=
  (∀ a b : Nat, (satmul32 a b).1.toNat = min (a * b) (2 ^ 32 - 1) ∧ ((satmul32 a b).2 = true ↔ 2 ^ 32 - 1 < a * b)) ∧
  (∀ s : State, exec .tocyc s = .next { s with
    res := (satmul32 s.ticks.toNat (s.cfg.factor s.cs.toNat)).1,
    sat := (satmul32 s.ticks.toNat (s.cfg.factor s.cs.toNat)).2 }) ∧
  ∀ s : State, exec .tous s = .next { s with
    res := (satmul32 s.ticks.toNat s.mul.toNat).1, sat := (satmul32 s.ticks.toNat s.mul.toNat).2 }

/-- TOCYC (43_scaler.md R104): its word; RES is TICKS times `DIV_SET[CS - 1]`, clamped, at the code of the last START, whatever
SEL holds; SAT says whether it was clamped; nothing else is written; and with CS = 1 and a factor of 1, RES is TICKS. -/
def Obligations.TocycMultipliesByTheRunningFactor : Prop :=
  encode .tocyc = 0x00000005 ∧
  (∀ (s : State) (n d : Nat), s.cs.toNat = n + 1 → s.cfg.divSet[n]? = some d →
    ∃ t, exec .tocyc s = .next t ∧ t = { s with res := t.res, sat := t.sat } ∧
      t.res.toNat = min (s.ticks.toNat * d) (2 ^ 32 - 1) ∧ (t.sat = true ↔ 2 ^ 32 - 1 < s.ticks.toNat * d)) ∧
  ∀ s t : State, s.cs = 1 → s.cfg.divSet[0]? = some 1 → exec .tocyc s = .next t → t.res = s.ticks ∧ t.sat = false

/-- TOUS (43_scaler.md R106): its word; RES is TICKS times MUL, clamped; SAT says whether it was clamped; nothing else is
written; MUL = 0 gives 0; and with a 16-bit count it never saturates for a MUL up to 65537. -/
def Obligations.TousMultipliesByMul : Prop :=
  encode .tous = 0x00000006 ∧
  (∀ s : State, ∃ t, exec .tous s = .next t ∧ t = { s with res := t.res, sat := t.sat } ∧
    t.res.toNat = min (s.ticks.toNat * s.mul.toNat) (2 ^ 32 - 1) ∧
    (t.sat = true ↔ 2 ^ 32 - 1 < s.ticks.toNat * s.mul.toNat)) ∧
  (∀ s t : State, s.mul = 0 → exec .tous s = .next t → t.res = 0 ∧ t.sat = false) ∧
  (∀ s t : State, s.ticks.toNat ≤ 65535 → s.mul.toNat ≤ 65537 → exec .tous s = .next t → t.sat = false) ∧
  65535 * 65537 = 2 ^ 32 - 1

/-- The spec's derived property (43_scaler.md R105): for every factor and every count in range, TOCYC is the exact product and
does not saturate, provided `CAP * DIV_SET[K-1] <= 2^32 - 1`; that holds for every legal width with the default factor set,
and with W = 16 the largest result is 67107840. -/
def Obligations.TocycIsExactInRange : Prop :=
  (∀ s t : State, s.cfg.wf = true → 1 ≤ s.cs.toNat → s.cs.toNat ≤ s.cfg.k → s.ticks.toNat ≤ s.cfg.cap →
    s.cfg.cap * s.cfg.maxFactor ≤ 2 ^ 32 - 1 → exec .tocyc s = .next t →
    t.res.toNat = s.ticks.toNat * s.cfg.factor s.cs.toNat ∧ t.sat = false) ∧
  (∀ c : Config, c.wf = true → c.divSet = [1, 8, 64, 256, 1024] → c.cap * c.maxFactor ≤ 2 ^ 32 - 1) ∧
  Config.defaults.cap * Config.defaults.maxFactor = 67107840

/-- 43_scaler.md R110: the scaler commands change only RES and SAT, and the same operands always give the same result. -/
def Obligations.ScalerCommandsArePureFunctionsOfTheirOperands : Prop :=
  (∀ s t : State, exec .tocyc s = .next t ∨ exec .tous s = .next t → t = { s with res := t.res, sat := t.sat }) ∧
  (∀ s s' t t' : State, s.ticks = s'.ticks → s.cfg.factor s.cs.toNat = s'.cfg.factor s'.cs.toNat →
    exec .tocyc s = .next t → exec .tocyc s' = .next t' → t.res = t'.res ∧ t.sat = t'.sat) ∧
  ∀ s s' t t' : State, s.ticks = s'.ticks → s.mul = s'.mul →
    exec .tous s = .next t → exec .tous s' = .next t' → t.res = t'.res ∧ t.sat = t'.sat

/-- 42_gate.md R95 and R96, GSAVE and GREST: their words; GSAVE saves the enable and suppresses every line, in one step; GREST
restores the saved enable and keeps it saved, so that a second GREST gives the same; neither writes anything else; GREST undoes
a GSAVE whatever happened between them that kept SAVED, so delivery stays off after `GDIS; GSAVE; ...; GREST`; and a GREST
without an earlier GSAVE restores the reset value of SAVED. -/
def Obligations.GsaveAndGrestSaveAndRestoreTheEnable : Prop :=
  encode .gsave = 0x00000007 ∧ encode .grest = 0x00000008 ∧
  (∀ s : State, exec .gsave s = .next { s with saved := s.gie, gie := false }) ∧
  (∀ (s t : State) (i : Nat), exec .gsave s = .next t → irqOut t i = false) ∧
  (∀ s : State, exec .grest s = .next { s with gie := s.saved }) ∧
  (∀ s t u : State, exec .grest s = .next t → exec .grest t = .next u → u.gie = t.gie) ∧
  (∀ s t u v : State, exec .gsave s = .next t → u.saved = t.saved → exec .grest u = .next v → v.gie = s.gie) ∧
  (∀ s t u v w : State, exec .gdis s = .next t → exec .gsave t = .next u → v.saved = u.saved → exec .grest v = .next w →
    w.gie = false) ∧
  ∀ t : State, exec .grest State.reset = .next t → t.gie = false

/-- GEN and GDIS (42_gate.md R97, R98): their words; they set and clear GIE and write nothing else, SAVED included; after GEN
every asserted line passes at once; after GDIS none does. -/
def Obligations.GenAndGdisSwitchDelivery : Prop :=
  encode .gen = 0x00000009 ∧ encode .gdis = 0x0000000A ∧
  (∀ s : State, exec .gen s = .next { s with gie := true }) ∧
  (∀ s : State, exec .gdis s = .next { s with gie := false }) ∧
  (∀ (s t : State) (i : Nat), i < s.cfg.nIrq → exec .gen s = .next t → irqOut t i = s.irqIn.getLsbD i) ∧
  ∀ (s t : State) (i : Nat), exec .gdis s = .next t → irqOut t i = false

/-- NOP and CLRERR (44_control.md R111, R112): their words; NOP changes nothing, and the all-zero word is NOP, legal for every
K; CLRERR clears ILL and nothing else. -/
def Obligations.NopAndClrerrDoNoMore : Prop :=
  encode .nop = 0x00000000 ∧ encode .clrerr = 0x0000000B ∧
  (∀ s : State, exec .nop s = .next s ∧ perform 0x00000000 s = .next s) ∧
  ∀ s : State, exec .clrerr s = .next { s with ill := false } ∧ perform 0x0000000B s = .next { s with ill := false }

/-! ### The selector -/

/-- The spec's derived map (41_selector.md R89): the code SELECT chooses is exactly the one of the range EST falls in, it never
decreases as EST grows, and with the defaults it is the table's SEL word. -/
def Obligations.SelectionFollowsTheRangesAndIsMonotonic : Prop :=
  (∀ (c : Config) (est : Nat), c.wf = true →
    (est ≤ c.cap * c.factor 1 → c.selectCode est = 1) ∧
    (∀ i, 1 ≤ i → i < c.k → c.cap * c.factor i < est → est ≤ c.cap * c.factor (i + 1) → c.selectCode est = i + 1) ∧
    (c.cap * c.factor c.k < est → c.selectCode est = c.k)) ∧
  (∀ (c : Config) (e e' : Nat), c.wf = true → e ≤ e' → c.selectCode e ≤ c.selectCode e') ∧
  ∀ s t : State, s.cfg.width = 16 → s.cfg.divSet = [1, 8, 64, 256, 1024] → exec .select s = .next t →
    t.sel = if s.est.toNat ≤ 65535 then 0x00010001 else if s.est.toNat ≤ 524280 then 0x00080002
      else if s.est.toNat ≤ 4194240 then 0x00400003 else if s.est.toNat ≤ 16776960 then 0x01000004 else 0x04000005

/-- The spec's derived optimality (41_selector.md R91): a run of at most EST clock steps at the selected factor, started after
CFG, does not wrap, for every EST up to `CAP * DIV_SET[K-1]`; and no smaller factor has the capacity for EST steps. -/
def Obligations.SelectedFactorNeverWrapsAndIsTheSmallest : Prop :=
  ∀ (s t u v : State) (n : Nat), s.cfg.wf = true → s.est.toNat ≤ s.cfg.cap * s.cfg.maxFactor → n ≤ s.est.toNat →
    exec .select s = .next t → exec .cfg t = .next u → exec (.start 0) u = .next v →
    (clockSteps n v).ovf = false ∧ (clockSteps n v).cnt.toNat = n / s.cfg.factor (selCs t.sel).toNat ∧
    ∀ c, 1 ≤ c → c < (selCs t.sel).toNat → s.cfg.cap * s.cfg.factor c < s.est.toNat

/-! ### The counter -/

/-- 40_counter.md R80: one clock edge while `rst` is low, in each of its cases, with the factor of the code in CS. -/
def Obligations.ClockEdgeAdvancesTheCounter : Prop :=
  ∀ (s : State) (n f : Nat) (rest : List Event), s.cfg.wf = true → s.rst = false → s.inputs = .clock :: rest →
    s.cs.toNat = n + 1 → s.cfg.divSet[n]? = some f →
    (s.run = false → step s = .next { s with inputs := rest, rdata := none }) ∧
    (s.run = true → s.psc.toNat + 1 < f →
      step s = .next { s with inputs := rest, rdata := none, psc := s.psc + 1 }) ∧
    (s.run = true → f ≤ s.psc.toNat + 1 → s.cnt.toNat = 2 ^ s.cfg.width - 1 →
      step s = .next { s with inputs := rest, rdata := none, psc := 0, cnt := 0, ovf := true }) ∧
    (s.run = true → f ≤ s.psc.toNat + 1 → s.cnt.toNat ≠ 2 ^ s.cfg.width - 1 →
      step s = .next { s with inputs := rest, rdata := none, psc := 0, cnt := s.cnt + 1 })

/-- The spec's derived count of one run (40_counter.md R81): after `n` clock steps at a fixed code, from any phase below the
factor and any count, PSC, CNT and OVF are the closed forms and nothing else has changed. -/
def Obligations.ClockStepsHaveTheClosedForm : Prop :=
  ∀ (s : State) (n : Nat), s.cfg.wf = true → 1 ≤ s.cs.toNat → s.cs.toNat ≤ s.cfg.k → s.run = true →
    s.psc.toNat < s.cfg.factor s.cs.toNat → s.cnt.toNat ≤ s.cfg.cap →
    (clockSteps n s).psc.toNat = (s.psc.toNat + n) % s.cfg.factor s.cs.toNat ∧
    (clockSteps n s).cnt.toNat =
      (s.cnt.toNat + (s.psc.toNat + n) / s.cfg.factor s.cs.toNat) % 2 ^ s.cfg.width ∧
    ((clockSteps n s).ovf = true ↔
      s.ovf = true ∨ 2 ^ s.cfg.width ≤ s.cnt.toNat + (s.psc.toNat + n) / s.cfg.factor s.cs.toNat) ∧
    clockSteps n s = { s with
      psc := (clockSteps n s).psc, cnt := (clockSteps n s).cnt, ovf := (clockSteps n s).ovf }

/-- The spec's derived independence (40_counter.md R85): SELECT, TOCYC, TOUS, the gate commands, NOP, CLRERR, illegal words
and register writes never change the counter unit, and the counter keeps counting through them: the clock edge after one of
them does what it would have done before it. -/
def Obligations.OtherCommandsLeaveTheCounterCounting : Prop :=
  ∀ s t : State,
    (exec .select s = .next t ∨ exec .tocyc s = .next t ∨ exec .tous s = .next t ∨ exec .gsave s = .next t ∨
      exec .grest s = .next t ∨ exec .gen s = .next t ∨ exec .gdis s = .next t ∨ exec .nop s = .next t ∨
      exec .clrerr s = .next t ∨ (∃ v e, decode s.cfg.k v = .error e ∧ perform v s = .next t) ∨
      ∃ r v, r ≠ Reg.cmd ∧ busWrite r v s = .next t) →
    SameCounter s t ∧ SameCounter (clockStep s) (clockStep t)

/-- The counter unit's registers have only their writers (10_state.md R20 to R25; 40_counter.md R78, R86): whatever step is
taken, CNT and PSC change only by CFG, a clock edge or reset; RUN by START, STOP, CFG or reset; CS by START or reset; OVF
by CFG, a clock edge or reset; TICKS by STOP or reset. -/
def Obligations.CounterRegistersChangeOnlyByTheirWriters : Prop :=
  ∀ s t : State, step s = .next t →
    (t.cnt ≠ s.cnt → performs s .cfg ∨ nextEvent s = .clock ∨ resets s) ∧
    (t.psc ≠ s.psc → performs s .cfg ∨ nextEvent s = .clock ∨ resets s) ∧
    (t.run ≠ s.run → (∃ cs, performs s (.start cs)) ∨ performs s .stop ∨ performs s .cfg ∨ resets s) ∧
    (t.cs ≠ s.cs → (∃ cs, performs s (.start cs)) ∨ resets s) ∧
    (t.ovf ≠ s.ovf → performs s .cfg ∨ nextEvent s = .clock ∨ resets s) ∧
    (t.ticks ≠ s.ticks → performs s .stop ∨ resets s)

/-- The other registers have only their writers (10_state.md R26 to R33): EST and MUL change only by a host write to them or
reset; SEL by SELECT or reset; RES and SAT by TOCYC, TOUS or reset; GIE by the four gate commands or reset; SAVED by GSAVE or
reset; ILL by an illegal word, a write to a read-only register, CLRERR or reset. -/
def Obligations.OtherRegistersChangeOnlyByTheirWriters : Prop :=
  ∀ s t : State, step s = .next t →
    (t.est ≠ s.est → (∃ v, writes s .est v) ∨ resets s) ∧
    (t.mul ≠ s.mul → (∃ v, writes s .mul v) ∨ resets s) ∧
    (t.sel ≠ s.sel → performs s .select ∨ resets s) ∧
    (t.res ≠ s.res → performs s .tocyc ∨ performs s .tous ∨ resets s) ∧
    (t.sat ≠ s.sat → performs s .tocyc ∨ performs s .tous ∨ resets s) ∧
    (t.gie ≠ s.gie → performs s .gsave ∨ performs s .grest ∨ performs s .gen ∨ performs s .gdis ∨ resets s) ∧
    (t.saved ≠ s.saved → performs s .gsave ∨ resets s) ∧
    (t.ill ≠ s.ill → offends s ∨ performs s .clrerr ∨ resets s)

/-! ### The flags -/

/-- The sticky flags (10_state.md R24, R31, R37): OVF is set only by a clock edge and cleared only by CFG or reset; ILL is set
only by an illegal word or a write to a read-only register and cleared only by CLRERR or reset. -/
def Obligations.StickyFlagsAreSetAndClearedOnlyAsListed : Prop :=
  ∀ s t : State, step s = .next t →
    (s.ovf = false → t.ovf = true → nextEvent s = .clock ∧ s.run = true ∧ s.cnt.toNat = s.cfg.cap) ∧
    (s.ovf = true → t.ovf = false → performs s .cfg ∨ resets s) ∧
    (s.ill = false → t.ill = true → offends s) ∧
    (s.ill = true → t.ill = false → performs s .clrerr ∨ resets s)

/-- No step reads OVF, SAT or ILL (10_state.md R37; 44_control.md R115): with other values in the three flags, every step but
a read of STATUS stops for the same reason, or gives a state that agrees in everything but the three flags; and no flag drives
an output line. -/
def Obligations.NoStepReadsTheStatusFlags : Prop :=
  (∀ (s : State) (o a l : Bool), nextEvent s ≠ .host (.read (s.cfg.base + regOffset .status) 4) →
    mapNext (fun t => { t with ovf := o, sat := a, ill := l }) (step { s with ovf := o, sat := a, ill := l }) =
      mapNext (fun t => { t with ovf := o, sat := a, ill := l }) (step s)) ∧
  ∀ (s : State) (o a l : Bool) (i : Nat), irqOut { s with ovf := o, sat := a, ill := l } i = irqOut s i

/-! ### The gate -/

/-- The gate holds no pending state (42_gate.md R93, R94): what reaches the host is each line's level now, gated by GIE, so a
request withdrawn while delivery is suppressed is never delivered, and one still held is delivered once GIE is 1. -/
def Obligations.GateDeliversOnlyTheLevelsHeldNow : Prop :=
  (∀ (s : State) (i : Nat), i < s.cfg.nIrq → irqOut s i = (s.irqIn.getLsbD i && s.gie)) ∧
  (∀ (s t : State) (l i : Nat) (b : Bool), s.cfg.wf = true → s.inputs.head? = some (.irq l b) → step s = .next t →
    irqOut t l = (b && s.gie) ∧ (i ≠ l → irqOut t i = irqOut s i)) ∧
  ∀ (s : State) (l : Nat) (b : Bool) (rest : List Event), s.Ready → l < s.cfg.nIrq → s.gie = false →
    s.inputs = .irq l true :: .irq l b :: .host (.write s.cfg.base 4 (encode .gen)) :: rest →
    ∃ t u, runSteps 2 s = .next t ∧ irqOut t l = false ∧ runSteps 3 s = .next u ∧ irqOut u l = b

/-- 42_gate.md R99: SAVED is one level deep. A GSAVE inside a window already opened by GSAVE (GIE = 0) overwrites SAVED with 0;
no step but a GSAVE gives it another value; so the inner GREST and every later GREST give GIE = 0, however many there are. -/
def Obligations.NestedWindowsLoseTheOuterEnable : Prop :=
  (∀ s t : State, s.gie = false → exec .gsave s = .next t → t.saved = false ∧ t.gie = false) ∧
  (∀ s t : State, step s = .next t → s.saved = false → ¬performs s .gsave →
    t.saved = false ∧ (performs s .grest → t.gie = false)) ∧
  ∀ (s : State) (n : Nat) (rest : List Event), s.Ready →
    s.inputs = commandWrite s.cfg (encode .gsave) :: commandWrite s.cfg (encode .gsave) ::
      (List.replicate (n + 1) (commandWrite s.cfg (encode .grest)) ++ rest) →
    ∃ t, runSteps (n + 3) s = .next t ∧ t.saved = false ∧ t.gie = false

/-- 42_gate.md R100: no gate command changes counter state, no counter command or clock edge changes GIE or SAVED, and OVF
drives no output line. -/
def Obligations.GateAndCounterAreIndependent : Prop :=
  (∀ s t : State, exec .gsave s = .next t ∨ exec .grest s = .next t ∨ exec .gen s = .next t ∨ exec .gdis s = .next t →
    SameCounter s t) ∧
  (∀ s t : State, (exec .cfg s = .next t ∨ (∃ cs, exec (.start cs) s = .next t) ∨ exec .stop s = .next t ∨
    clockEdge s = .next t) → SameGate s t) ∧
  ∀ (s : State) (b : Bool) (i : Nat), irqOut { s with ovf := b } i = irqOut s i

/-- Delivery stays suppressed from a suppression until a GREST or GEN (42_gate.md R95, R98, R101), and after reset until a GEN,
because a GREST restores a SAVED of 0 (70_reset_and_hazards.md R137): no other step lets a line through. -/
def Obligations.DeliveryStaysSuppressedUntilReenabled : Prop :=
  (∀ s t : State, step s = .next t → s.gie = false → ¬performs s .grest → ¬performs s .gen →
    t.gie = false ∧ ∀ i, irqOut t i = false) ∧
  (State.reset.gie = false ∧ State.reset.saved = false) ∧
  ∀ s t : State, step s = .next t → s.gie = false → s.saved = false → ¬performs s .gen →
    t.gie = false ∧ t.saved = false ∧ ∀ i, irqOut t i = false

/-! ### Reset and the invariant -/

/-- Asserting `rst`, at any time, gives every register its reset value (10_state.md R41; 70_reset_and_hazards.md R135); and the
state after reset holds the same values for the default parameters. That the parameters and the request lines are kept is
deduced: they are no registers (log 11). -/
def Obligations.ResetGivesEveryRegisterItsTableValue : Prop :=
  (∀ (s : State) (rest : List Event), s.cfg.wf = true → s.inputs = .rst true :: rest →
    ∃ t, step s = .next t ∧ t.cnt = 0 ∧ t.psc = 0 ∧ t.run = false ∧ t.cs = 1 ∧ t.ovf = false ∧ t.ticks = 0 ∧ t.est = 0 ∧
      (selCs t.sel).toNat = 1 ∧ some (selFactor t.sel).toNat = s.cfg.divSet[0]? ∧ t.sel.extractLsb' 3 13 = 0 ∧
      t.mul = 0 ∧ t.res = 0 ∧ t.sat = false ∧ t.ill = false ∧ t.gie = false ∧ t.saved = false ∧
      readReg t .capacity = BitVec.ofNat 32 (2 ^ s.cfg.width - 1) ∧ t.rst = true ∧ t.cfg = s.cfg ∧ t.irqIn = s.irqIn) ∧
  (State.reset.cfg.width = 16 ∧ State.reset.cfg.divSet = [1, 8, 64, 256, 1024] ∧ State.reset.cnt = 0 ∧
    State.reset.psc = 0 ∧ State.reset.run = false ∧ State.reset.cs = 1 ∧ State.reset.ovf = false ∧
    State.reset.ticks = 0 ∧ State.reset.est = 0 ∧ State.reset.sel = 0x00010001 ∧ State.reset.mul = 0 ∧
    State.reset.res = 0 ∧ State.reset.sat = false ∧ State.reset.ill = false ∧ State.reset.gie = false ∧
    State.reset.saved = false ∧ readReg State.reset .capacity = 0x0000FFFF)

/-- While `rst` is high every register holds its reset value, whatever the clock and the interrupt sources do, no host access
is performed, no line reaches the host, and `rst` stays high until it is released (70_reset_and_hazards.md R135). Releasing it
lowers `rst`, so that an assertion and a release leave the block in the reset state and ready for the next host access; that
a release changes nothing else, in any state, is deduced (log 11). -/
def Obligations.ResetHoldsWhileAsserted : Prop :=
  (∀ s t : State, s.Inv → s.rst = true → step s = .next t →
    resetRegisters t = t ∧ (∀ i, irqOut t i = false) ∧ (nextEvent s ≠ .rst false → t.rst = true) ∧
    (nextEvent s = .rst false → t.rst = false) ∧ ∀ a, nextEvent s ≠ .host a) ∧
  (∀ (s : State) (rest : List Event), s.cfg.wf = true → s.inputs = .rst false :: rest →
    step s = .next { s with inputs := rest, rdata := none, rst := false }) ∧
  ∀ (s : State) (rest : List Event), s.cfg.wf = true → s.cfg.mapping = .device →
    s.inputs = .rst true :: .rst false :: rest →
    ∃ t, runSteps 2 s = .next t ∧ t.Ready ∧ t.inputs = rest ∧ resetRegisters t = t

/-- The state after reset satisfies the invariant; its OPEN parameters and port levels are the model's (logs 2, 6). -/
def Obligations.InvariantHoldsAfterReset : Prop := State.reset.Inv

/-- Every step keeps the invariant: the parameters stay legal, CNT and TICKS stay within `W` bits, CS and SEL hold legal codes,
SEL's factor is its code's, only existing lines are asserted, and a reset that is held holds (10_state.md R20, R23, R25, R27;
00_scope.md R7 to R10; 70_reset_and_hazards.md R135). -/
def Obligations.EveryStepKeepsTheInvariant : Prop :=
  ∀ s t : State, s.Inv → step s = .next t → t.Inv

/-! ### What cannot be seen -/

/-- CNT and PSC are hidden (10_state.md R38): a step that is neither a STOP nor a clock edge has, for any other count and
phase, the same outcome but for CNT and PSC themselves, the word read included. -/
def Obligations.CountAndPhaseAreHidden : Prop :=
  ∀ (s : State) (c : CounterWord) (p : BitVec 16), nextEvent s ≠ .clock → ¬performs s .stop →
    mapNext (fun t => { t with cnt := c, psc := p }) (step { s with cnt := c, psc := p }) =
      mapNext (fun t => { t with cnt := c, psc := p }) (step s)

/-- No rule of the block reads F_CPU (00_scope.md R11): a step at another clock frequency is the same step. -/
def Obligations.NoStepReadsTheClockFrequency : Prop :=
  ∀ (s : State) (f : Nat), step { s with cfg := { s.cfg with fCpu := f } } =
    mapNext (fun t => { t with cfg := { t.cfg with fCpu := f } }) (step s)

/-! ### The measurement -/

/-- The spec's derived measurement result (40_counter.md R81; 70_reset_and_hazards.md R142): from every state of the invariant
that is ready, `CFG; START; n clock steps; STOP` gives `TICKS = floor(n / f) mod 2^W`, with OVF set exactly when
`floor(n / f) >= 2^W`, at the factor of the code START resolves. -/
def Obligations.CfgStartClocksStopMeasuresTheClockSteps : Prop :=
  ∀ (s : State) (cs : BitVec 3) (n : Nat) (rest : List Event), s.Inv → s.Ready → cs.toNat ≤ s.cfg.k →
    s.inputs = programEvents s.cfg [.cmd .cfg, .cmd (.start cs), .workload n, .cmd .stop] ++ rest →
    ∃ t, runSteps (n + 3) s = .next t ∧ t.inputs = rest ∧ t.run = false ∧ t.cs = startCode cs s.sel ∧
      t.ticks.toNat = n / s.cfg.factor t.cs.toNat % 2 ^ s.cfg.width ∧
      (t.ovf = true ↔ 2 ^ s.cfg.width ≤ n / s.cfg.factor t.cs.toNat)

/-- The required measurement sequence (70_reset_and_hazards.md R141, steps 1 to 7): from every state of the invariant that is
ready, for every estimate and every number of clock steps of the workload, it ends with the counter stopped, the caller's
interrupt enable restored, and in TICKS the clock steps divided by the selected factor, modulo `2^W`; and if the estimate was
an upper bound within the capacity, nothing wrapped. -/
def Obligations.MeasurementSequenceMeasuresAndRestores : Prop :=
  ∀ (s : State) (est : Word) (n : Nat) (rest : List Event), s.Inv → s.Ready →
    s.inputs = programEvents s.cfg (measurement est n) ++ rest →
    ∃ t, runSteps (n + 7) s = .next t ∧ t.inputs = rest ∧ t.run = false ∧ t.gie = s.gie ∧ t.saved = s.gie ∧
      t.cs.toNat = s.cfg.selectCode est.toNat ∧
      t.ticks.toNat = n / s.cfg.factor t.cs.toNat % 2 ^ s.cfg.width ∧
      (t.ovf = true ↔ 2 ^ s.cfg.width ≤ n / s.cfg.factor t.cs.toNat) ∧
      (n ≤ est.toNat → est.toNat ≤ s.cfg.cap * s.cfg.maxFactor →
        t.ovf = false ∧ t.ticks.toNat = n / s.cfg.factor t.cs.toNat)
end

