-- ==== Sys2Proof/Laws/State.lean ====
section
/-! SUPPORT. One lemma per field per named update of State, true by `rfl`. -/

namespace Sys2Proof.Machine

/-! ### A conversion (43_scaler.md R103) -/

section

variable (a b : Nat) (s : State)

@[simp] theorem convert_cfg : (convert a b s).cfg = s.cfg := rfl
@[simp] theorem convert_cnt : (convert a b s).cnt = s.cnt := rfl
@[simp] theorem convert_psc : (convert a b s).psc = s.psc := rfl
@[simp] theorem convert_run : (convert a b s).run = s.run := rfl
@[simp] theorem convert_cs : (convert a b s).cs = s.cs := rfl
@[simp] theorem convert_ovf : (convert a b s).ovf = s.ovf := rfl
@[simp] theorem convert_ticks : (convert a b s).ticks = s.ticks := rfl
@[simp] theorem convert_est : (convert a b s).est = s.est := rfl
@[simp] theorem convert_sel : (convert a b s).sel = s.sel := rfl
@[simp] theorem convert_mul : (convert a b s).mul = s.mul := rfl
@[simp] theorem convert_res : (convert a b s).res = (satmul32 a b).1 := rfl
@[simp] theorem convert_sat : (convert a b s).sat = (satmul32 a b).2 := rfl
@[simp] theorem convert_ill : (convert a b s).ill = s.ill := rfl
@[simp] theorem convert_gie : (convert a b s).gie = s.gie := rfl
@[simp] theorem convert_saved : (convert a b s).saved = s.saved := rfl
@[simp] theorem convert_rst : (convert a b s).rst = s.rst := rfl
@[simp] theorem convert_irqIn : (convert a b s).irqIn = s.irqIn := rfl
@[simp] theorem convert_rdata : (convert a b s).rdata = s.rdata := rfl
@[simp] theorem convert_inputs : (convert a b s).inputs = s.inputs := rfl
@[simp] theorem convert_draws : (convert a b s).draws = s.draws := rfl

end

/-! ### Setting ILL (44_control.md R113) -/

section

variable (s : State)

@[simp] theorem setIll_cfg : (setIll s).cfg = s.cfg := rfl
@[simp] theorem setIll_cnt : (setIll s).cnt = s.cnt := rfl
@[simp] theorem setIll_psc : (setIll s).psc = s.psc := rfl
@[simp] theorem setIll_run : (setIll s).run = s.run := rfl
@[simp] theorem setIll_cs : (setIll s).cs = s.cs := rfl
@[simp] theorem setIll_ovf : (setIll s).ovf = s.ovf := rfl
@[simp] theorem setIll_ticks : (setIll s).ticks = s.ticks := rfl
@[simp] theorem setIll_est : (setIll s).est = s.est := rfl
@[simp] theorem setIll_sel : (setIll s).sel = s.sel := rfl
@[simp] theorem setIll_mul : (setIll s).mul = s.mul := rfl
@[simp] theorem setIll_res : (setIll s).res = s.res := rfl
@[simp] theorem setIll_sat : (setIll s).sat = s.sat := rfl
@[simp] theorem setIll_ill : (setIll s).ill = true := rfl
@[simp] theorem setIll_gie : (setIll s).gie = s.gie := rfl
@[simp] theorem setIll_saved : (setIll s).saved = s.saved := rfl
@[simp] theorem setIll_rst : (setIll s).rst = s.rst := rfl
@[simp] theorem setIll_irqIn : (setIll s).irqIn = s.irqIn := rfl
@[simp] theorem setIll_rdata : (setIll s).rdata = s.rdata := rfl
@[simp] theorem setIll_inputs : (setIll s).inputs = s.inputs := rfl
@[simp] theorem setIll_draws : (setIll s).draws = s.draws := rfl

end

/-! ### Driving the read port (10_state.md R40) -/

section

variable (v : Word) (s : State)

@[simp] theorem drive_cfg : (drive v s).cfg = s.cfg := rfl
@[simp] theorem drive_cnt : (drive v s).cnt = s.cnt := rfl
@[simp] theorem drive_psc : (drive v s).psc = s.psc := rfl
@[simp] theorem drive_run : (drive v s).run = s.run := rfl
@[simp] theorem drive_cs : (drive v s).cs = s.cs := rfl
@[simp] theorem drive_ovf : (drive v s).ovf = s.ovf := rfl
@[simp] theorem drive_ticks : (drive v s).ticks = s.ticks := rfl
@[simp] theorem drive_est : (drive v s).est = s.est := rfl
@[simp] theorem drive_sel : (drive v s).sel = s.sel := rfl
@[simp] theorem drive_mul : (drive v s).mul = s.mul := rfl
@[simp] theorem drive_res : (drive v s).res = s.res := rfl
@[simp] theorem drive_sat : (drive v s).sat = s.sat := rfl
@[simp] theorem drive_ill : (drive v s).ill = s.ill := rfl
@[simp] theorem drive_gie : (drive v s).gie = s.gie := rfl
@[simp] theorem drive_saved : (drive v s).saved = s.saved := rfl
@[simp] theorem drive_rst : (drive v s).rst = s.rst := rfl
@[simp] theorem drive_irqIn : (drive v s).irqIn = s.irqIn := rfl
@[simp] theorem drive_rdata : (drive v s).rdata = some v := rfl
@[simp] theorem drive_inputs : (drive v s).inputs = s.inputs := rfl
@[simp] theorem drive_draws : (drive v s).draws = s.draws := rfl

end

/-! ### Driving a request line (10_state.md R40) -/

section

variable (l : Nat) (b : Bool) (s : State)

@[simp] theorem setLine_cfg : (setLine l b s).cfg = s.cfg := rfl
@[simp] theorem setLine_cnt : (setLine l b s).cnt = s.cnt := rfl
@[simp] theorem setLine_psc : (setLine l b s).psc = s.psc := rfl
@[simp] theorem setLine_run : (setLine l b s).run = s.run := rfl
@[simp] theorem setLine_cs : (setLine l b s).cs = s.cs := rfl
@[simp] theorem setLine_ovf : (setLine l b s).ovf = s.ovf := rfl
@[simp] theorem setLine_ticks : (setLine l b s).ticks = s.ticks := rfl
@[simp] theorem setLine_est : (setLine l b s).est = s.est := rfl
@[simp] theorem setLine_sel : (setLine l b s).sel = s.sel := rfl
@[simp] theorem setLine_mul : (setLine l b s).mul = s.mul := rfl
@[simp] theorem setLine_res : (setLine l b s).res = s.res := rfl
@[simp] theorem setLine_sat : (setLine l b s).sat = s.sat := rfl
@[simp] theorem setLine_ill : (setLine l b s).ill = s.ill := rfl
@[simp] theorem setLine_gie : (setLine l b s).gie = s.gie := rfl
@[simp] theorem setLine_saved : (setLine l b s).saved = s.saved := rfl
@[simp] theorem setLine_rst : (setLine l b s).rst = s.rst := rfl
@[simp] theorem setLine_irqIn : (setLine l b s).irqIn = if b then s.irqIn ||| BitVec.twoPow 32 l else s.irqIn &&& ~~~BitVec.twoPow 32 l := rfl
@[simp] theorem setLine_rdata : (setLine l b s).rdata = s.rdata := rfl
@[simp] theorem setLine_inputs : (setLine l b s).inputs = s.inputs := rfl
@[simp] theorem setLine_draws : (setLine l b s).draws = s.draws := rfl

end

/-! ### Reset of the registers (10_state.md R41) -/

section

variable (s : State)

@[simp] theorem resetRegisters_cfg : (resetRegisters s).cfg = s.cfg := rfl
@[simp] theorem resetRegisters_cnt : (resetRegisters s).cnt = 0 := rfl
@[simp] theorem resetRegisters_psc : (resetRegisters s).psc = 0 := rfl
@[simp] theorem resetRegisters_run : (resetRegisters s).run = false := rfl
@[simp] theorem resetRegisters_cs : (resetRegisters s).cs = 1 := rfl
@[simp] theorem resetRegisters_ovf : (resetRegisters s).ovf = false := rfl
@[simp] theorem resetRegisters_ticks : (resetRegisters s).ticks = 0 := rfl
@[simp] theorem resetRegisters_est : (resetRegisters s).est = 0 := rfl
@[simp] theorem resetRegisters_sel : (resetRegisters s).sel = s.cfg.selWord 1 := rfl
@[simp] theorem resetRegisters_mul : (resetRegisters s).mul = 0 := rfl
@[simp] theorem resetRegisters_res : (resetRegisters s).res = 0 := rfl
@[simp] theorem resetRegisters_sat : (resetRegisters s).sat = false := rfl
@[simp] theorem resetRegisters_ill : (resetRegisters s).ill = false := rfl
@[simp] theorem resetRegisters_gie : (resetRegisters s).gie = false := rfl
@[simp] theorem resetRegisters_saved : (resetRegisters s).saved = false := rfl
@[simp] theorem resetRegisters_rst : (resetRegisters s).rst = s.rst := rfl
@[simp] theorem resetRegisters_irqIn : (resetRegisters s).irqIn = s.irqIn := rfl
@[simp] theorem resetRegisters_rdata : (resetRegisters s).rdata = s.rdata := rfl
@[simp] theorem resetRegisters_inputs : (resetRegisters s).inputs = s.inputs := rfl
@[simp] theorem resetRegisters_draws : (resetRegisters s).draws = s.draws := rfl

end

/-! ### Announcing a command word -/

section

variable (v : Word) (s : State)

@[simp] theorem announceWord_cfg : (announceWord v s).cfg = s.cfg := rfl
@[simp] theorem announceWord_cnt : (announceWord v s).cnt = s.cnt := rfl
@[simp] theorem announceWord_psc : (announceWord v s).psc = s.psc := rfl
@[simp] theorem announceWord_run : (announceWord v s).run = s.run := rfl
@[simp] theorem announceWord_cs : (announceWord v s).cs = s.cs := rfl
@[simp] theorem announceWord_ovf : (announceWord v s).ovf = s.ovf := rfl
@[simp] theorem announceWord_ticks : (announceWord v s).ticks = s.ticks := rfl
@[simp] theorem announceWord_est : (announceWord v s).est = s.est := rfl
@[simp] theorem announceWord_sel : (announceWord v s).sel = s.sel := rfl
@[simp] theorem announceWord_mul : (announceWord v s).mul = s.mul := rfl
@[simp] theorem announceWord_res : (announceWord v s).res = s.res := rfl
@[simp] theorem announceWord_sat : (announceWord v s).sat = s.sat := rfl
@[simp] theorem announceWord_ill : (announceWord v s).ill = s.ill := rfl
@[simp] theorem announceWord_gie : (announceWord v s).gie = s.gie := rfl
@[simp] theorem announceWord_saved : (announceWord v s).saved = s.saved := rfl
@[simp] theorem announceWord_rst : (announceWord v s).rst = false := rfl
@[simp] theorem announceWord_irqIn : (announceWord v s).irqIn = s.irqIn := rfl
@[simp] theorem announceWord_rdata : (announceWord v s).rdata = s.rdata := rfl
@[simp] theorem announceWord_inputs : (announceWord v s).inputs = commandWrite s.cfg v :: s.inputs := rfl
@[simp] theorem announceWord_draws : (announceWord v s).draws = s.draws := rfl

end

/-! ### Taking the next agent step -/

section

variable (s : State)

@[simp] theorem afterEvent_cfg : (afterEvent s).cfg = s.cfg := by unfold afterEvent; split <;> rfl
@[simp] theorem afterEvent_cnt : (afterEvent s).cnt = s.cnt := by unfold afterEvent; split <;> rfl
@[simp] theorem afterEvent_psc : (afterEvent s).psc = s.psc := by unfold afterEvent; split <;> rfl
@[simp] theorem afterEvent_run : (afterEvent s).run = s.run := by unfold afterEvent; split <;> rfl
@[simp] theorem afterEvent_cs : (afterEvent s).cs = s.cs := by unfold afterEvent; split <;> rfl
@[simp] theorem afterEvent_ovf : (afterEvent s).ovf = s.ovf := by unfold afterEvent; split <;> rfl
@[simp] theorem afterEvent_ticks : (afterEvent s).ticks = s.ticks := by unfold afterEvent; split <;> rfl
@[simp] theorem afterEvent_est : (afterEvent s).est = s.est := by unfold afterEvent; split <;> rfl
@[simp] theorem afterEvent_sel : (afterEvent s).sel = s.sel := by unfold afterEvent; split <;> rfl
@[simp] theorem afterEvent_mul : (afterEvent s).mul = s.mul := by unfold afterEvent; split <;> rfl
@[simp] theorem afterEvent_res : (afterEvent s).res = s.res := by unfold afterEvent; split <;> rfl
@[simp] theorem afterEvent_sat : (afterEvent s).sat = s.sat := by unfold afterEvent; split <;> rfl
@[simp] theorem afterEvent_ill : (afterEvent s).ill = s.ill := by unfold afterEvent; split <;> rfl
@[simp] theorem afterEvent_gie : (afterEvent s).gie = s.gie := by unfold afterEvent; split <;> rfl
@[simp] theorem afterEvent_saved : (afterEvent s).saved = s.saved := by unfold afterEvent; split <;> rfl
@[simp] theorem afterEvent_rst : (afterEvent s).rst = s.rst := by unfold afterEvent; split <;> rfl
@[simp] theorem afterEvent_irqIn : (afterEvent s).irqIn = s.irqIn := by unfold afterEvent; split <;> rfl
@[simp] theorem afterEvent_rdata : (afterEvent s).rdata = none := by unfold afterEvent; split <;> rfl
@[simp] theorem afterEvent_inputs : (afterEvent s).inputs = s.inputs.tail := by
  unfold afterEvent; split <;> simp_all
theorem afterEvent_draws : (afterEvent s).draws = if s.inputs = [] then s.draws + 1 else s.draws := by
  unfold afterEvent; split <;> simp_all

theorem resetRegisters_afterEvent : resetRegisters (afterEvent s) = afterEvent (resetRegisters s) := by
  simp only [afterEvent, resetRegisters_inputs]
  split <;> rfl

end

end Sys2Proof.Machine
end

