-- ==== Sys2Proof/Laws/Bus.lean ====
section
/-! SUPPORT. The window: where its registers stand, what an access does, and everything a step can do. -/

namespace Sys2Proof.Machine

/-! ### The register map (20_memory.md R43) -/

theorem base_aligned {c : Config} (h : c.wf = true) : c.base % 32 = 0 := by
  simp [Config.wf, Config.baseOk] at h
  omega

theorem regOffset_lt (r : Reg) : regOffset r < 32 := by cases r <;> decide

theorem regOffset_aligned (r : Reg) : regOffset r % 4 = 0 := by cases r <;> decide

@[simp] theorem regAt_regOffset (r : Reg) : regAt (regOffset r / 4) = some r := by cases r <;> rfl

@[simp] theorem inWindow_reg (c : Config) (r : Reg) : inWindow c (c.base + regOffset r) = true := by
  have := regOffset_lt r
  simp [inWindow, this]

theorem regAt_isSome {n : Nat} (h : n < 8) : ∃ r, regAt n = some r ∧ regOffset r = 4 * n := by
  interval_cases n <;> exact ⟨_, rfl, rfl⟩

/-- An accepted access at a register's address is that register's. -/
theorem onRegister_reg {s : State} (hwf : s.cfg.wf = true) (hm : s.cfg.mapping = .device) (r : Reg)
    (f : Reg → State → Host.Outcome State Fault Refusal) : onRegister (s.cfg.base + regOffset r) 4 s f = f r s := by
  have h1 := base_aligned hwf
  have h2 := regOffset_aligned r
  simp only [onRegister, hm, ne_eq, not_true_eq_false, if_false, false_or]
  rw [if_neg (by omega), Nat.add_sub_cancel_left]
  simp

/-- Everything `onRegister` can do with an address of the window. -/
theorem onRegister_cases {s : State} (hwf : s.cfg.wf = true) {addr : Nat} (hw : inWindow s.cfg addr = true) (n : Nat)
    (f : Reg → State → Host.Outcome State Fault Refusal) :
    (s.cfg.mapping ≠ .device ∧ onRegister addr n s f = .refused .notDeviceMapping) ∨
    (s.cfg.mapping = .device ∧ (n ≠ 4 ∨ addr % 4 ≠ 0) ∧ onRegister addr n s f = .refused .narrowOrMisalignedAccess) ∨
    (s.cfg.mapping = .device ∧ n = 4 ∧ ∃ r, addr = s.cfg.base + regOffset r ∧ onRegister addr n s f = f r s) := by
  by_cases hm : s.cfg.mapping = .device
  · by_cases ha : n ≠ 4 ∨ addr % 4 ≠ 0
    · exact .inr (.inl ⟨hm, ha, by simp [onRegister, hm, ha]⟩)
    · have hb := base_aligned hwf
      simp [inWindow] at hw
      obtain ⟨r, hr, ho⟩ := regAt_isSome (n := (addr - s.cfg.base) / 4) (by omega)
      have hn : n = 4 := by omega
      subst hn
      have he : addr = s.cfg.base + regOffset r := by omega
      exact .inr (.inr ⟨hm, rfl, r, he, by rw [he]; exact onRegister_reg hwf hm r f⟩)
  · exact .inl ⟨hm, by simp [onRegister, hm]⟩

/-! ### The announced step -/

theorem agentStep_announced {s : State} (hwf : s.cfg.wf = true) {e : Event} {rest : List Event} (h : s.inputs = e :: rest) :
    step s = performEvent e { s with inputs := rest, rdata := none } := by
  simp [step, agentStep, hwf, nextEvent, afterEvent, h]

theorem hostAccess_read {s : State} (hs : s.Ready) (r : Reg) :
    hostAccess (.read (s.cfg.base + regOffset r) 4) s = busRead r s := by
  obtain ⟨hwf, hm, hr⟩ := hs
  simp [hostAccess, accessAddr, hr, onRegister_reg hwf hm]

theorem hostAccess_write {s : State} (hs : s.Ready) (r : Reg) (v : Word) :
    hostAccess (.write (s.cfg.base + regOffset r) 4 v) s = busWrite r v s := by
  obtain ⟨hwf, hm, hr⟩ := hs
  simp [hostAccess, accessAddr, hr, onRegister_reg hwf hm]

/-- A ready block's step on an announced read of a register. -/
theorem step_read {s : State} (hs : s.Ready) {r : Reg} {rest : List Event}
    (h : s.inputs = .host (.read (s.cfg.base + regOffset r) 4) :: rest) :
    step s = .next { s with inputs := rest, rdata := some (readReg s r) } := by
  rw [agentStep_announced hs.1 h]
  refine (hostAccess_read (s := { s with inputs := rest, rdata := none }) hs r).trans ?_
  cases r <;> rfl

/-- A ready block's step on an announced write of a register. -/
theorem step_write {s : State} (hs : s.Ready) {r : Reg} {v : Word} {rest : List Event}
    (h : s.inputs = .host (.write (s.cfg.base + regOffset r) 4 v) :: rest) :
    step s = busWrite r v { s with inputs := rest, rdata := none } := by
  rw [agentStep_announced hs.1 h]
  exact hostAccess_write (s := { s with inputs := rest, rdata := none }) hs r v

/-! ### Everything a step can do -/

/-- The ways a step can give a next state (60_exceptions.md R117). -/
inductive StepCase (s t : State) : Prop where
  | read (r : Reg) (he : nextEvent s = .host (.read (s.cfg.base + regOffset r) 4)) (hr : s.rst = false)
      (ht : t = drive (readReg s r) (afterEvent s))
  | command (i : Instr) (hp : performs s i) (hr : s.rst = false) (ht : exec i (afterEvent s) = .next t)
  | offence (hp : offends s) (hr : s.rst = false) (ht : t = setIll (afterEvent s))
  | estimate (v : Word) (hw : writes s .est v) (hr : s.rst = false) (ht : t = { afterEvent s with est := v })
  | multiplier (v : Word) (hw : writes s .mul v) (hr : s.rst = false) (ht : t = { afterEvent s with mul := v })
  | clockHeld (he : nextEvent s = .clock) (hr : s.rst = true) (ht : t = afterEvent s)
  | clock (he : nextEvent s = .clock) (hr : s.rst = false) (ht : t = clockStep (afterEvent s))
  | line (l : Nat) (b : Bool) (he : nextEvent s = .irq l b) (hl : l < s.cfg.nIrq) (ht : t = setLine l b (afterEvent s))
  | assert (he : resets s) (ht : t = { resetRegisters (afterEvent s) with rst := true })
  | release (he : nextEvent s = .rst false) (ht : t = { afterEvent s with rst := false })

theorem readReg_afterEvent (s : State) (r : Reg) : readReg (afterEvent s) r = readReg s r := by
  cases r <;> simp [readReg, statusWord]

/-- The way one accepted write gives a next state. -/
theorem busWrite_case {s t : State} (hr : s.rst = false) {r : Reg} {v : Word} (hw : writes s r v)
    (h : busWrite r v (afterEvent s) = .next t) : StepCase s t := by
  cases r <;> simp only [busWrite, Host.Outcome.next.injEq] at h
  case cmd =>
    unfold perform at h
    split at h
    · rename_i i hd
      exact .command i ⟨v, hw, by simpa using hd⟩ hr h
    · rename_i e hd
      simp only [execIllegal, Host.Outcome.next.injEq] at h
      exact .offence ⟨v, .inl ⟨hw, e, by simpa using hd⟩⟩ hr h.symm
  case est => exact .estimate v hw hr h.symm
  case mul => exact .multiplier v hw hr h.symm
  all_goals exact .offence ⟨v, by tauto⟩ hr h.symm

/-- Inversion of a step that gives a next state. -/
theorem step_next {s t : State} (h : step s = .next t) : s.cfg.wf = true ∧ StepCase s t := by
  unfold step agentStep at h
  split at h
  case isFalse => cases h
  case isTrue hwf =>
    refine ⟨hwf, ?_⟩
    have hwf' : (afterEvent s).cfg.wf = true := by simpa using hwf
    cases he : nextEvent s with
    | clock =>
      simp only [he, performEvent, clockEdge, afterEvent_rst, Host.Outcome.next.injEq] at h
      cases hr : s.rst
      · exact .clock he hr (by simpa [hr] using h.symm)
      · exact .clockHeld he hr (by simpa [hr] using h.symm)
    | irq l b =>
      simp only [he, performEvent, driveLine, afterEvent_cfg] at h
      split at h
      · exact .line l b he ‹_› (by simpa using h.symm)
      · cases h
    | rst b =>
      simp only [he, performEvent, driveReset, Host.Outcome.next.injEq] at h
      cases b
      · exact .release he (by simpa using h.symm)
      · exact .assert he (by simpa using h.symm)
    | host a =>
      simp only [he, performEvent, hostAccess] at h
      split at h
      · cases h
      · rename_i hw
        split at h
        · cases h
        · rename_i hr
          have hr : s.rst = false := by simpa using hr
          have hw : inWindow (afterEvent s).cfg (accessAddr a) = true := by simpa using hw
          cases a with
          | fetch addr => cases h
          | read addr n =>
            have hw : inWindow (afterEvent s).cfg addr = true := hw
            obtain ⟨_, h'⟩ | ⟨_, _, h'⟩ | ⟨_, rfl, r, ha, h'⟩ := onRegister_cases hwf' hw n busRead <;>
              simp only [h'] at h
            · cases h
            · cases h
            · simp only [busRead, Host.Outcome.next.injEq, readReg_afterEvent] at h
              exact .read r (by rw [he, ha]; simp) hr h.symm
          | write addr n v =>
            have hw : inWindow (afterEvent s).cfg addr = true := hw
            obtain ⟨_, h'⟩ | ⟨_, _, h'⟩ | ⟨_, rfl, r, ha, h'⟩ :=
                onRegister_cases hwf' hw n (fun r => busWrite r v) <;>
              simp only [h'] at h
            · cases h
            · cases h
            · exact busWrite_case hr (by rw [writes, he, ha]; simp) h

end Sys2Proof.Machine
end

