-- ==== Sys2Proof/Laws/Operands.lean ====
section
/-! SUPPORT. The parameters' bounds, the division factors, the SEL word, and SELECT's search. -/

namespace Sys2Proof.Config

/-! ### What legal parameters give (00_scope.md R7 to R10) -/

theorem wf_iff (c : Config) : c.wf = true ↔
    (1 ≤ c.width ∧ c.width ≤ 22) ∧ (1 ≤ c.k ∧ c.k ≤ 7) ∧ (∀ d ∈ c.divSet, 1 ≤ d ∧ d ≤ 65535) ∧
      c.divSet.Pairwise (· < ·) ∧ c.base % 32 = 0 ∧ (1 ≤ c.nIrq ∧ c.nIrq ≤ 32) := by
  simp [wf, widthOk, countOk, factorsOk, increasing, baseOk, linesOk, and_assoc]

theorem wf_width {c : Config} (h : c.wf = true) : 1 ≤ c.width ∧ c.width ≤ 22 := ((wf_iff c).1 h).1

theorem wf_k {c : Config} (h : c.wf = true) : 1 ≤ c.k ∧ c.k ≤ 7 := ((wf_iff c).1 h).2.1

theorem wf_nIrq {c : Config} (h : c.wf = true) : 1 ≤ c.nIrq ∧ c.nIrq ≤ 32 := ((wf_iff c).1 h).2.2.2.2.2

theorem cap_lt {c : Config} (h : c.wf = true) : c.cap < 2 ^ 22 := by
  have := Nat.pow_le_pow_right (n := 2) (by decide) (wf_width h).2
  have := Nat.pow_pos (n := c.width) (a := 2) (by decide)
  simp only [cap]
  omega

theorem cap_add_one (c : Config) : c.cap + 1 = 2 ^ c.width := by
  have := Nat.pow_pos (n := c.width) (a := 2) (by decide)
  simp only [cap]
  omega

theorem cap_pos {c : Config} (h : c.wf = true) : 1 ≤ c.cap := by
  have := Nat.pow_le_pow_right (n := 2) (by decide) (wf_width h).1
  simp only [cap]
  omega

/-! ### Division factors (30_encoding.md R66) -/

/-- `factor(i + 1) = DIV_SET[i]`. -/
theorem factor_of_getElem {c : Config} {n d : Nat} (h : c.divSet[n]? = some d) : c.factor (n + 1) = d := by
  simp [factor, h]

theorem factor_eq {c : Config} {n : Nat} (h1 : 1 ≤ n) (h2 : n ≤ c.k) :
    ∃ _h : n - 1 < c.divSet.length, c.factor n = c.divSet[n - 1] := by
  obtain ⟨m, rfl⟩ : ∃ m, n = m + 1 := ⟨n - 1, by omega⟩
  have hm : m < c.divSet.length := by simpa [k] using h2
  exact ⟨by simpa using hm, factor_of_getElem (by simp [hm])⟩

theorem factor_bounds {c : Config} (h : c.wf = true) {n : Nat} (h1 : 1 ≤ n) (h2 : n ≤ c.k) :
    1 ≤ c.factor n ∧ c.factor n ≤ 65535 := by
  obtain ⟨hl, he⟩ := factor_eq h1 h2
  rw [he]
  exact ((wf_iff c).1 h).2.2.1 _ (List.getElem_mem hl)

/-- The factors strictly increase with the code (00_scope.md R8). -/
theorem factor_lt {c : Config} (h : c.wf = true) {m n : Nat} (h1 : 1 ≤ m) (h2 : m < n) (h3 : n ≤ c.k) :
    c.factor m < c.factor n := by
  obtain ⟨hl, he⟩ := factor_eq (c := c) (n := m) h1 (by omega)
  obtain ⟨hl', he'⟩ := factor_eq (c := c) (n := n) (by omega) h3
  rw [he, he']
  exact (List.pairwise_iff_getElem.1 ((wf_iff c).1 h).2.2.2.1) _ _ hl hl' (by omega)

theorem factor_le {c : Config} (h : c.wf = true) {m n : Nat} (h1 : 1 ≤ m) (h2 : m ≤ n) (h3 : n ≤ c.k) :
    c.factor m ≤ c.factor n := by
  obtain h2 | rfl := Nat.lt_or_eq_of_le h2
  · exact (factor_lt h h1 h2 h3).le
  · exact le_rfl

theorem factor_le_max {c : Config} (h : c.wf = true) {n : Nat} (h1 : 1 ≤ n) (h2 : n ≤ c.k) : c.factor n ≤ c.maxFactor :=
  factor_le h h1 h2 le_rfl

/-! ### The SEL word (10_state.md R27) -/

/-- The SEL word of a code is `2^16 * factor + code`. -/
theorem selWord_toNat {c : Config} (h : c.wf = true) {n : Nat} (h1 : 1 ≤ n) (h2 : n ≤ c.k) :
    (c.selWord n).toNat = 2 ^ 16 * c.factor n + n := by
  have := (factor_bounds h h1 h2).2
  have := (wf_k h).2
  rw [selWord, BitVec.toNat_ofNat, ← Nat.shiftLeft_add_eq_or_of_lt (by omega), Nat.shiftLeft_eq]
  omega

/-! ### SELECT's search (41_selector.md R87, R89) -/

/-- The search answers a legal code. -/
theorem selectCode_bounds {c : Config} (h : c.wf = true) (e : Nat) : 1 ≤ c.selectCode e ∧ c.selectCode e ≤ c.k := by
  have := (wf_k h).1
  unfold selectCode
  split
  · rename_i i hi
    have := (List.findIdx?_eq_some_iff_getElem.1 hi).choose
    simp only [k] at *
    omega
  · omega

/-- Every code below the chosen one lacks the capacity. -/
theorem selectCode_min {c : Config} (h : c.wf = true) {e n : Nat} (h1 : 1 ≤ n) (h2 : n < c.selectCode e) :
    c.cap * c.factor n < e := by
  have hb := selectCode_bounds h e
  obtain ⟨hl, he⟩ := factor_eq (c := c) (n := n) h1 (by omega)
  rw [he]
  unfold selectCode at h2
  split at h2
  · rename_i i hi
    obtain ⟨_, _, hm⟩ := List.findIdx?_eq_some_iff_getElem.1 hi
    simpa using hm (n - 1) (by omega)
  · rename_i hn
    simpa using List.findIdx?_eq_none_iff.1 hn _ (List.getElem_mem hl)

/-- The chosen code has the capacity, unless no code has. -/
theorem selectCode_fits {c : Config} {e : Nat} (he : e ≤ c.cap * c.maxFactor) :
    e ≤ c.cap * c.factor (c.selectCode e) := by
  unfold selectCode
  split
  · rename_i i hi
    obtain ⟨hl, hp, _⟩ := List.findIdx?_eq_some_iff_getElem.1 hi
    rw [factor_of_getElem (d := c.divSet[i]) (by simp [hl])]
    simpa using hp
  · exact he

end Sys2Proof.Config

namespace Sys2Proof.Machine

/-! ### The fields of SEL -/

theorem selCs_toNat (w : Word) : (selCs w).toNat = w.toNat % 2 ^ 3 := by simp [selCs]

theorem selFactor_toNat (w : Word) : (selFactor w).toNat = w.toNat / 2 ^ 16 % 2 ^ 16 := by
  simp [selFactor, Nat.shiftRight_eq_div_pow]

/-- `SEL.CS` of a code's SEL word is the code. -/
theorem selCs_selWord {c : Config} (h : c.wf = true) {n : Nat} (h1 : 1 ≤ n) (h2 : n ≤ c.k) :
    (selCs (c.selWord n)).toNat = n := by
  have := (Config.wf_k h).2
  rw [selCs_toNat, Config.selWord_toNat h h1 h2]
  omega

/-- `SEL.FACTOR` of a code's SEL word is the code's factor. -/
theorem selFactor_selWord {c : Config} (h : c.wf = true) {n : Nat} (h1 : 1 ≤ n) (h2 : n ≤ c.k) :
    (selFactor (c.selWord n)).toNat = c.factor n := by
  have := (Config.wf_k h).2
  have := (Config.factor_bounds h h1 h2).2
  rw [selFactor_toNat, Config.selWord_toNat h h1 h2]
  omega

/-- Bits [15:3] of a code's SEL word are 0. -/
theorem selGap_selWord {c : Config} (h : c.wf = true) {n : Nat} (h1 : 1 ≤ n) (h2 : n ≤ c.k) :
    (c.selWord n).extractLsb' 3 13 = 0 := by
  have := (Config.wf_k h).2
  apply BitVec.eq_of_toNat_eq
  simp only [BitVec.extractLsb'_toNat, Config.selWord_toNat h h1 h2, Nat.shiftRight_eq_div_pow, BitVec.ofNat_eq_ofNat,
    BitVec.toNat_ofNat]
  omega

end Sys2Proof.Machine
end

