-- ==== Sys2Proof/Laws/Counter.lean ====
section
/-! SUPPORT. Everything a clock step can do, and its frame. -/

namespace Sys2Proof.Machine

/-- The cases of a clock step (40_counter.md R80, R86). -/
theorem clockStep_cases (s : State) :
    (s.run = false ∧ clockStep s = s) ∨
    (s.run = true ∧ s.psc.toNat + 1 < s.cfg.factor s.cs.toNat ∧ clockStep s = { s with psc := s.psc + 1 }) ∨
    (s.run = true ∧ s.cfg.factor s.cs.toNat ≤ s.psc.toNat + 1 ∧ s.cnt.toNat = s.cfg.cap ∧
      clockStep s = { s with psc := 0, cnt := 0, ovf := true }) ∨
    (s.run = true ∧ s.cfg.factor s.cs.toNat ≤ s.psc.toNat + 1 ∧ s.cnt.toNat ≠ s.cfg.cap ∧
      clockStep s = { s with psc := 0, cnt := s.cnt + 1 }) := by
  by_cases hr : s.run = true
  · by_cases hf : s.cfg.factor s.cs.toNat ≤ s.psc.toNat + 1
    · by_cases hc : s.cnt.toNat = s.cfg.cap
      · exact .inr (.inr (.inl ⟨hr, hf, hc, by simp [clockStep, hr, hf, tick, hc]⟩))
      · exact .inr (.inr (.inr ⟨hr, hf, hc, by simp [clockStep, hr, hf, tick, hc]⟩))
    · exact .inr (.inl ⟨hr, by omega, by simp [clockStep, hr, hf]⟩)
  · exact .inl ⟨by simpa using hr, by simp [clockStep, hr]⟩

/-- The frame of a clock step: it writes PSC, CNT and OVF only. -/
theorem clockStep_frame (s : State) :
    clockStep s = { s with psc := (clockStep s).psc, cnt := (clockStep s).cnt, ovf := (clockStep s).ovf } := by
  obtain ⟨_, h⟩ | ⟨_, _, h⟩ | ⟨_, _, _, h⟩ | ⟨_, _, _, h⟩ := clockStep_cases s <;> rw [h]

section

variable (s : State)

@[simp] theorem clockStep_cfg : (clockStep s).cfg = s.cfg := by rw [clockStep_frame]
@[simp] theorem clockStep_run : (clockStep s).run = s.run := by rw [clockStep_frame]
@[simp] theorem clockStep_cs : (clockStep s).cs = s.cs := by rw [clockStep_frame]
@[simp] theorem clockStep_ticks : (clockStep s).ticks = s.ticks := by rw [clockStep_frame]
@[simp] theorem clockStep_est : (clockStep s).est = s.est := by rw [clockStep_frame]
@[simp] theorem clockStep_sel : (clockStep s).sel = s.sel := by rw [clockStep_frame]
@[simp] theorem clockStep_mul : (clockStep s).mul = s.mul := by rw [clockStep_frame]
@[simp] theorem clockStep_res : (clockStep s).res = s.res := by rw [clockStep_frame]
@[simp] theorem clockStep_sat : (clockStep s).sat = s.sat := by rw [clockStep_frame]
@[simp] theorem clockStep_ill : (clockStep s).ill = s.ill := by rw [clockStep_frame]
@[simp] theorem clockStep_gie : (clockStep s).gie = s.gie := by rw [clockStep_frame]
@[simp] theorem clockStep_saved : (clockStep s).saved = s.saved := by rw [clockStep_frame]
@[simp] theorem clockStep_rst : (clockStep s).rst = s.rst := by rw [clockStep_frame]
@[simp] theorem clockStep_irqIn : (clockStep s).irqIn = s.irqIn := by rw [clockStep_frame]
@[simp] theorem clockStep_rdata : (clockStep s).rdata = s.rdata := by rw [clockStep_frame]
@[simp] theorem clockStep_inputs : (clockStep s).inputs = s.inputs := by rw [clockStep_frame]
@[simp] theorem clockStep_draws : (clockStep s).draws = s.draws := by rw [clockStep_frame]

end

end Sys2Proof.Machine
end

