-- ==== Sys2Proof/Laws/Decode.lean ====
section
/-! SUPPORT. The fields of a command word as numbers, and the fields of an encoded command. -/

namespace Sys2Proof

/-! ### The fields as numbers (30_encoding.md R62) -/

theorem fieldOp_eq (v : Word) : fieldOp v = v.toNat % 2 ^ 4 := by
  simp [fieldOp]

theorem fieldCs_toNat (v : Word) : (fieldCs v).toNat = v.toNat / 2 ^ 4 % 2 ^ 3 := by
  simp [fieldCs, Nat.shiftRight_eq_div_pow]

theorem fieldRsv_toNat (v : Word) : (fieldRsv v).toNat = v.toNat / 2 ^ 7 := by
  have := v.isLt
  simp only [fieldRsv, BitVec.extractLsb'_toNat, Nat.shiftRight_eq_div_pow]
  omega

/-- A word is the sum of its fields. -/
theorem word_of_fields (v : Word) :
    v.toNat = 2 ^ 7 * (fieldRsv v).toNat + 2 ^ 4 * (fieldCs v).toNat + fieldOp v := by
  rw [fieldOp_eq, fieldCs_toNat, fieldRsv_toNat]
  omega

/-! ### The fields of an encoded command -/

theorem encode_toNat (i : Instr) : (encode i).toNat = 2 ^ 4 * (codeField i).toNat + (opcode i).toNat := by
  have hc := (codeField i).isLt
  have ho := (opcode i).isLt
  simp only [encode, BitVec.toNat_append, Nat.shiftLeft_eq]
  rw [← Nat.shiftLeft_eq, ← Nat.shiftLeft_add_eq_or_of_lt (by omega), ← Nat.shiftLeft_eq,
    ← Nat.shiftLeft_add_eq_or_of_lt (by omega)]
  simp [Nat.shiftLeft_eq]
  omega

@[simp] theorem fieldOp_encode (i : Instr) : fieldOp (encode i) = (opcode i).toNat := by
  have := (opcode i).isLt
  rw [fieldOp_eq, encode_toNat]
  omega

@[simp] theorem fieldCs_encode (i : Instr) : fieldCs (encode i) = codeField i := by
  have := (opcode i).isLt
  have := (codeField i).isLt
  apply BitVec.eq_of_toNat_eq
  rw [fieldCs_toNat, encode_toNat]
  omega

@[simp] theorem fieldRsv_encode (i : Instr) : fieldRsv (encode i) = 0 := by
  have := (opcode i).isLt
  have := (codeField i).isLt
  apply BitVec.eq_of_toNat_eq
  rw [fieldRsv_toNat, encode_toNat]
  simp only [BitVec.ofNat_eq_ofNat, BitVec.toNat_ofNat]
  omega

/-- What `decode` can answer with a command: RSV is 0, OP is the command's, and CS is its code field, in range for a START. -/
theorem decode_ok {k : Nat} {v : Word} {i : Instr} (h : decode k v = .ok i) :
    fieldRsv v = 0 ∧ fieldOp v = (opcode i).toNat ∧ fieldCs v = codeField i ∧ i.wf k = true := by
  unfold decode at h
  split at h
  · cases h
  · rename_i hr
    split at h
    · cases h
    · split at h
      · cases h
      · rename_i hc
        split at h
        · cases h
        · rename_i hk
          split at h <;>
            first
            | (rename_i ho; injection h with h; subst h; simp_all [opcode, codeField, Instr.wf])
            | cases h

/-- When `decode` rejects a word: exactly for the four kinds of 30_encoding.md R68. -/
theorem decode_error_iff (k : Nat) (v : Word) :
    (∃ e, decode k v = .error e) ↔
      fieldRsv v ≠ 0 ∨ 0xC ≤ fieldOp v ∨ (fieldOp v ≠ 0x2 ∧ fieldCs v ≠ 0) ∨ (fieldOp v = 0x2 ∧ k < (fieldCs v).toNat) := by
  unfold decode
  split
  · simp_all
  · split
    · simp_all
    · split
      · simp_all
      · split
        · simp_all
        · rename_i hr ho hc hk
          refine iff_of_false ?_ (by tauto)
          rintro ⟨e, he⟩
          split at he <;> first | (simp only [imp_false] at *; omega) | cases he

/-- A word is either rejected or one command's. -/
theorem decode_total (k : Nat) (v : Word) : (∃ i, decode k v = .ok i) ∨ ∃ e, decode k v = .error e := by
  cases h : decode k v with
  | ok i => exact .inl ⟨i, rfl⟩
  | error e => exact .inr ⟨e, rfl⟩

end Sys2Proof
end

