-- ==== Sys2Proof/Laws/Flags.lean ====
section
/-! SUPPORT. Everything the saturating multiply and the gate's output can do. -/

namespace Sys2Proof.Machine

/-- The two cases of `satmul32` (43_scaler.md R103). -/
theorem satmul32_cases (a b : Nat) :
    (2 ^ 32 - 1 < a * b ∧ satmul32 a b = (0xFFFFFFFF, true)) ∨
    (a * b ≤ 2 ^ 32 - 1 ∧ satmul32 a b = (BitVec.ofNat 32 (a * b), false)) := by
  unfold satmul32
  split
  · exact .inl ⟨by omega, rfl⟩
  · exact .inr ⟨by omega, rfl⟩

/-- No line is delivered while GIE is 0 (42_gate.md R93). -/
theorem irqOut_of_gie {s : State} (h : s.gie = false) (i : Nat) : irqOut s i = false := by
  simp [irqOut, h]

/-- The output line after a source has driven its own (42_gate.md R93, R94). -/
theorem irqOut_setLine {s : State} (hwf : s.cfg.wf = true) {l : Nat} (hl : l < s.cfg.nIrq) (b : Bool) (i : Nat) :
    irqOut (setLine l b s) i = if i = l then (b && s.gie) else irqOut s i := by
  have h32 := (Config.wf_nIrq hwf).2
  have hbit : i < 32 → (setLine l b s).irqIn.getLsbD i = if i = l then b else s.irqIn.getLsbD i := by
    intro hi
    by_cases h : i = l
    · subst h
      cases b <;> simp [hi]
    · cases b <;> simp [hi, h]
  by_cases hi : i < s.cfg.nIrq
  · simp only [irqOut, setLine_cfg, setLine_gie, hbit (by omega)]
    split <;> simp_all
  · have h : i ≠ l := by omega
    simp [irqOut, hi, h]

/-- A line is among the delivered ones exactly when it is high at the output (60_exceptions.md R120). -/
theorem mem_delivered (s : State) (i : Nat) : i ∈ delivered s ↔ irqOut s i = true := by
  simp only [delivered, List.mem_filter, List.mem_range, and_iff_right_iff_imp]
  intro h
  simp [irqOut] at h
  exact h.1.1

end Sys2Proof.Machine
end

