-- ==== Sys2Proof/Laws/PerInstr.lean ====
section
/-! SUPPORT. The per-command family EncodesInFormat: a command's word has the one format of 30_encoding.md R62. -/

namespace Sys2Proof.Laws.EncodesInFormat

/-- The word of a command has RSV = 0, an OP below 0xC, and CS = 0 unless it is a START (30_encoding.md R62, R64, R65). -/
def Statement (i : Instr) : Prop :=
  fieldRsv (encode i) = 0 ∧ fieldOp (encode i) < 0xC ∧ (fieldCs (encode i) ≠ 0 → ∃ cs, i = .start cs)

theorem nop : Statement .nop := by simp [Statement, opcode, codeField]
theorem cfg : Statement .cfg := by simp [Statement, opcode, codeField]
theorem start (cs : BitVec 3) : Statement (.start cs) := by simp [Statement, opcode]
theorem stop : Statement .stop := by simp [Statement, opcode, codeField]
theorem select : Statement .select := by simp [Statement, opcode, codeField]
theorem tocyc : Statement .tocyc := by simp [Statement, opcode, codeField]
theorem tous : Statement .tous := by simp [Statement, opcode, codeField]
theorem gsave : Statement .gsave := by simp [Statement, opcode, codeField]
theorem grest : Statement .grest := by simp [Statement, opcode, codeField]
theorem gen : Statement .gen := by simp [Statement, opcode, codeField]
theorem gdis : Statement .gdis := by simp [Statement, opcode, codeField]
theorem clrerr : Statement .clrerr := by simp [Statement, opcode, codeField]

end Sys2Proof.Laws.EncodesInFormat
end

