-- ==== Sys2Proof/Laws/Step.lean ====
section
/-! SUPPORT. Runs, the announced steps of the other agents, and the frame of every command outside the registers. -/

namespace Sys2Proof.Machine

/-! ### Runs -/

theorem runSteps_succ {s t : State} {n : Nat} (h : step s = .next t) : runSteps (n + 1) s = runSteps n t := by
  simp [runSteps, h]

/-- The host's run of the machine is `runSteps`. -/
theorem core_run_eq (n : Nat) (s : State) : Host.Core.run Sys2Proof.core n s = runSteps n s := by
  induction n generalizing s with
  | zero => rfl
  | succ n ih =>
    simp only [Host.Core.run, runSteps]
    cases h : step s with
    | next t =>
      have h' : Sys2Proof.core.step s = .next t := h
      simp only [h']
      exact ih t
    | fault f =>
      have h' : Sys2Proof.core.step s = .fault f := h
      simp only [h']
      rfl
    | refused r =>
      have h' : Sys2Proof.core.step s = .refused r := h
      simp only [h']
      rfl

/-! ### The announced steps of the clock, the sources and reset (60_exceptions.md R117) -/

section

variable {s : State} {rest : List Event}

theorem step_clock (hwf : s.cfg.wf = true) (hr : s.rst = false) (h : s.inputs = .clock :: rest) :
    step s = .next (clockStep { s with inputs := rest, rdata := none }) := by
  simp [agentStep_announced hwf h, performEvent, clockEdge, hr]

theorem step_irq (hwf : s.cfg.wf = true) {l : Nat} (hl : l < s.cfg.nIrq) {b : Bool} (h : s.inputs = .irq l b :: rest) :
    step s = .next (setLine l b { s with inputs := rest, rdata := none }) := by
  simp [agentStep_announced hwf h, performEvent, driveLine, hl]

theorem step_rst (hwf : s.cfg.wf = true) {b : Bool} (h : s.inputs = .rst b :: rest) :
    step s = driveReset b { s with inputs := rest, rdata := none } := by
  simp [agentStep_announced hwf h, performEvent]

theorem step_assert (hwf : s.cfg.wf = true) (h : s.inputs = .rst true :: rest) :
    step s = .next { resetRegisters { s with inputs := rest, rdata := none } with rst := true } := step_rst hwf h

theorem step_release (hwf : s.cfg.wf = true) (h : s.inputs = .rst false :: rest) :
    step s = .next { s with inputs := rest, rdata := none, rst := false } := step_rst hwf h

/-- A word placed where the next step takes it is performed by that step. -/
theorem step_withFetchWord (hwf : s.cfg.wf = true) (hm : s.cfg.mapping = .device) (nbits w : Nat) :
    step (s.withFetchWord nbits w) = perform (tableWord nbits w) { s with rst := false, rdata := none } := by
  have h := step_write (s := s.withFetchWord nbits w) (r := .cmd) (v := tableWord nbits w) (rest := s.inputs) ⟨hwf, hm, rfl⟩ rfl
  rw [h]
  rfl

end

/-! ### The frame of every command -/

/-- No command writes a parameter, a port or an announced input. -/
theorem exec_samePorts {i : Instr} {s t : State} (h : exec i s = .next t) : SamePorts s t := by
  cases i <;>
    simp only [exec, execNop, execCfg, execStart, execStop, execSelect, execTocyc, execTous, execGsave, execGrest, execGen,
      execGdis, execClrerr, Host.Outcome.next.injEq] at h <;>
    subst h <;> simp [SamePorts]

/-- No command reads the read port or the announced inputs. -/
theorem exec_withPorts {i : Instr} {s t : State} (h : exec i s = .next t) (l : List Event) (d : Option Word) (n : Nat) :
    exec i { s with inputs := l, rdata := d, draws := n } = .next { t with inputs := l, rdata := d, draws := n } := by
  cases i <;>
    simp only [exec, execNop, execCfg, execStart, execStop, execSelect, execTocyc, execTous, execGsave, execGrest, execGen,
      execGdis, execClrerr, Host.Outcome.next.injEq] at h ⊢ <;>
    subst h <;> rfl

/-- The bytes of the window depend only on the registers they show (20_memory.md R47). -/
theorem readByte_congr {s t : State} {a : Nat} (hc : t.cfg = s.cfg)
    (h : ∀ r, s.cfg.base + regOffset r ≤ a → a < s.cfg.base + regOffset r + 4 → readReg t r = readReg s r) :
    readByte t a = readByte s a := by
  simp only [readByte, hc]
  by_cases hw : inWindow s.cfg a = true
  · simp only [hw, if_true]
    simp [inWindow] at hw
    obtain ⟨r, hr, ho⟩ := regAt_isSome (n := (a - s.cfg.base) / 4) (by omega)
    simp only [hr, Option.map_some]
    rw [h r (by omega) (by omega)]
  · simp [hw]

end Sys2Proof.Machine
end

