-- ==== Sys2Proof/Tests/Slice0.lean ====
section
/-! SUPPORT. Tests on small states, with expected values from the spec's tables and examples; and a witness for the
hypotheses of every statement. -/

open Sys2Proof Sys2Proof.Machine

namespace Sys2Proof.Tests

/-- The state after reset with inputs announced. -/
def ready (l : List Event) : State := { State.reset with inputs := l }

/-- The announced write of a command word, for BASE = 0. -/
def put (v : Word) : Event := .host (.write 0 4 v)

/-- The next state of an outcome satisfies a check. -/
def gives (o : Host.Outcome State Fault Refusal) (p : State → Bool) : Bool :=
  match o with
  | .next t => p t
  | .fault _ => false
  | .refused _ => false

/-- The outcome is this refusal. -/
def refuses (o : Host.Outcome State Fault Refusal) (r : Refusal) : Bool :=
  match o with
  | .refused q => decide (q = r)
  | .next _ => false
  | .fault _ => false

/-- The outcome is this fault. -/
def faults (o : Host.Outcome State Fault Refusal) (f : Fault) : Bool :=
  match o with
  | .fault g => decide (g = f)
  | .next _ => false
  | .refused _ => false

/-- The decoder's answer, for K = 5. -/
def reads (v : Word) (i : Instr) : Bool :=
  match decode 5 v with
  | .ok j => decide (j = i)
  | .error _ => false

/-- The decoder's rejection, for K = 5. -/
def rejects (v : Word) (e : Illegal) : Bool :=
  match decode 5 v with
  | .ok _ => false
  | .error f => decide (f = e)

/-! ### Well-formedness: an ill-formed term for each check -/

theorem test_wf_defaults : Config.defaults.wf = true := by decide
theorem test_wf_width : ({ Config.defaults with width := 0 } : Config).wf = false ∧
    ({ Config.defaults with width := 23 } : Config).wf = false := by decide
theorem test_wf_count : ({ Config.defaults with divSet := [] } : Config).wf = false ∧
    ({ Config.defaults with divSet := [1, 2, 3, 4, 5, 6, 7, 8] } : Config).wf = false := by decide
theorem test_wf_factors : ({ Config.defaults with divSet := [0, 8] } : Config).wf = false ∧
    ({ Config.defaults with divSet := [1, 65536] } : Config).wf = false := by decide
theorem test_wf_increasing : ({ Config.defaults with divSet := [8, 8] } : Config).wf = false := by decide
theorem test_wf_base : ({ Config.defaults with base := 16 } : Config).wf = false := by decide
theorem test_wf_lines : ({ Config.defaults with nIrq := 0 } : Config).wf = false ∧
    ({ Config.defaults with nIrq := 33 } : Config).wf = false := by decide
theorem test_wf_start : Instr.wf 5 (.start 5) = true ∧ Instr.wf 5 (.start 6) = false := by decide

/-! ### Decoding: words written out from the patterns of 30_encoding.md R62 and R64 (opcode_table.json) -/

theorem test_decode_nop : reads 0b00000000000000000000000000000000 .nop = true := by decide
theorem test_decode_cfg : reads 0b00000000000000000000000000000001 .cfg = true := by decide
theorem test_decode_start : reads 0b00000000000000000000000000000010 (.start 0) = true ∧
    reads 0b00000000000000000000000001010010 (.start 5) = true := by decide
theorem test_decode_stop : reads 0b00000000000000000000000000000011 .stop = true := by decide
theorem test_decode_select : reads 0b00000000000000000000000000000100 .select = true := by decide
theorem test_decode_tocyc : reads 0b00000000000000000000000000000101 .tocyc = true := by decide
theorem test_decode_tous : reads 0b00000000000000000000000000000110 .tous = true := by decide
theorem test_decode_gsave : reads 0b00000000000000000000000000000111 .gsave = true := by decide
theorem test_decode_grest : reads 0b00000000000000000000000000001000 .grest = true := by decide
theorem test_decode_gen : reads 0b00000000000000000000000000001001 .gen = true := by decide
theorem test_decode_gdis : reads 0b00000000000000000000000000001010 .gdis = true := by decide
theorem test_decode_clrerr : reads 0b00000000000000000000000000001011 .clrerr = true := by decide

/-- 95_test_vectors.md section 2.5: the illegal words. -/
theorem test_decode_illegal : rejects 0x0000000C .reservedOp = true ∧ rejects 0x0000000F .reservedOp = true ∧
    rejects 0x00000062 .codeOutOfRange = true ∧ rejects 0x00000072 .codeOutOfRange = true ∧
    rejects 0x00000013 .strayCs = true ∧ rejects 0x00000080 .reservedBits = true ∧
    rejects 0x80000001 .reservedBits = true := by decide

theorem test_table_word : decodeTableWord 32 0x32 = some (.start 3) ∧ decodeTableWord 32 0x62 = none := by decide

/-! ### Commands: one step each, expected values from 95_test_vectors.md and the rules' examples -/

/-- 40_counter.md R76, example. -/
theorem test_cfg : gives (step { ready [put 0x1] with cnt := 0x1234, psc := 5, run := true, ovf := true, cs := 3 })
    (fun t => t.cnt == 0 && t.psc == 0 && !t.run && !t.ovf && t.cs == 3) = true := by decide
/-- 40_counter.md R77, example: SEL.CS = 3 and the word 0x00000002. -/
theorem test_start_selected : gives (step { ready [put 0x2] with sel := 0x00400003, cnt := 7 })
    (fun t => t.cs == 3 && t.run && t.cnt == 7) = true := by decide
/-- 40_counter.md R77, example: the word 0x00000052. -/
theorem test_start_explicit : gives (step { ready [put 0x52] with sel := 0x00400003 })
    (fun t => t.cs == 5 && t.run) = true := by decide
/-- 40_counter.md R79, example. -/
theorem test_stop : gives (step { ready [put 0x3] with cnt := 4687, run := true })
    (fun t => t.ticks == 0x0000124F && !t.run && t.cnt == 4687) = true := by decide
/-- 95_test_vectors.md S1. -/
theorem test_select : gives (step { ready [put 0x4] with est := 700000 })
    (fun t => t.sel == 0x00400003 && t.cs == 1) = true := by decide
/-- 95_test_vectors.md section 2.2: both sides of a boundary, and the degraded mode. -/
theorem test_select_boundary : gives (exec .select { ready [] with est := 524280 }) (fun t => t.sel == 0x00080002) = true ∧
    gives (exec .select { ready [] with est := 524281 }) (fun t => t.sel == 0x00400003) = true ∧
    gives (exec .select { ready [] with est := 0xFFFFFFFF }) (fun t => t.sel == 0x04000005) = true := by decide
/-- 95_test_vectors.md M2: CS, not SEL, names the factor. -/
theorem test_tocyc : gives (step { ready [put 0x5] with ticks := 4687, cs := 3, sat := true })
    (fun t => t.res == 0x000493C0 && !t.sat) = true := by decide
/-- 95_test_vectors.md M6 and M7: the last product that fits, and the first that saturates. -/
theorem test_tous : gives (step { ready [put 0x6] with ticks := 65535, mul := 65537 })
      (fun t => t.res == 0xFFFFFFFF && !t.sat) = true ∧
    gives (step { ready [put 0x6] with ticks := 65535, mul := 65538 })
      (fun t => t.res == 0xFFFFFFFF && t.sat) = true := by decide
/-- 95_test_vectors.md G1 and G3. -/
theorem test_gsave : gives (step { ready [put 0x7] with gie := true, irqIn := 0b101 })
      (fun t => !t.gie && t.saved && delivered t == []) = true ∧
    gives (step { ready [put 0x7] with saved := true }) (fun t => !t.gie && !t.saved) = true := by decide
/-- 95_test_vectors.md G2. -/
theorem test_grest : gives (step { ready [put 0x8] with saved := true, irqIn := 0b101 })
    (fun t => t.gie && t.saved && delivered t == [0, 2]) = true := by decide
/-- 95_test_vectors.md G5. -/
theorem test_gen : gives (step { ready [put 0x9] with irqIn := 0b101 })
    (fun t => t.gie && !t.saved && delivered t == [0, 2]) = true := by decide
/-- 95_test_vectors.md G6. -/
theorem test_gdis : gives (step { ready [put 0xA] with gie := true, saved := true, irqIn := 0b101 })
    (fun t => !t.gie && t.saved && delivered t == []) = true := by decide
/-- 44_control.md R111. -/
theorem test_nop : gives (step { ready [put 0x0] with run := true, ill := true })
    (fun t => decide (t = { ready [] with run := true, ill := true })) = true := by decide
/-- 44_control.md R112, example. -/
theorem test_clrerr : gives (step { ready [put 0xB] with ill := true, ovf := true }) (fun t => !t.ill && t.ovf) = true := by
  decide
/-- 44_control.md R113, example: STOP with CS = 1 stops nothing. -/
theorem test_illegal_word : gives (step { ready [put 0x13] with run := true }) (fun t => t.ill && t.run) = true := by decide

/-! ### The clock, the window, reset -/

/-- 40_counter.md R80, example. -/
theorem test_clock_tick : gives (step { ready [.clock] with run := true, cs := 3, psc := 63, cnt := 9 })
    (fun t => t.psc == 0 && t.cnt == 10 && !t.ovf) = true := by decide
/-- 95_test_vectors.md V6: the wrap from CAP. -/
theorem test_clock_wrap : gives (step { ready [.clock] with run := true, cnt := 65535 })
    (fun t => t.cnt == 0 && t.ovf && t.run) = true := by decide
/-- 95_test_vectors.md V11: after a change of rate, a PSC past the factor ticks. -/
theorem test_clock_retarget : gives (step { ready [.clock] with run := true, cs := 2, psc := 500 })
    (fun t => t.cnt == 1 && t.psc == 0) = true := by decide
/-- 95_test_vectors.md B2 and B1. -/
theorem test_read : gives (step (ready [.host (.read 4 4)])) (fun t => t.rdata == some 0x00000100) = true ∧
    gives (step (ready [.host (.read 0x1C 4)])) (fun t => t.rdata == some 0x0000FFFF) = true := by decide
/-- 95_test_vectors.md P1, end state: STATUS = 0x00000330. -/
theorem test_status : statusWord { ready [] with cs := 3, gie := true, saved := true } = 0x00000330 := by decide
/-- 95_test_vectors.md B5. -/
theorem test_write_read_only : gives (step (ready [.host (.write 8 4 5)])) (fun t => t.ticks == 0 && t.ill) = true := by decide
/-- 95_test_vectors.md B7: a byte read at BASE + 0x05; and the other host actions without a meaning. -/
theorem test_refusals : refuses (step (ready [.host (.read 5 1)])) .narrowOrMisalignedAccess = true ∧
    refuses (step (ready [.host (.fetch 4)])) .fetchFromDevice = true ∧
    refuses (step { ready [.host (.read 4 4)] with rst := true }) .accessDuringReset = true ∧
    refuses (step { ready [.host (.read 4 4)] with cfg := { Config.defaults with mapping := .cached } })
      .notDeviceMapping = true ∧
    refuses (step { ready [.clock] with cfg := { Config.defaults with width := 23 } }) .unsupportedParameters = true ∧
    refuses (step (ready [.irq 32 true])) (.noSuchLine 32) = true ∧
    faults (step (ready [.host (.read 32 4)])) (.outsideWindow 32) = true := by decide
/-- 70_reset_and_hazards.md R135: when `rst` goes low the block takes steps as usual; the lines keep their levels. -/
theorem test_reset_release : gives (step { ready [.rst false] with rst := true, irqIn := 0b101 })
    (fun t => !t.rst && t.irqIn == 0b101) = true := by decide
/-- 70_reset_and_hazards.md R136: reset ends a run. -/
theorem test_reset_ends_run : gives (step { ready [.rst true] with run := true, cnt := 9, ticks := 9, gie := true, cs := 3 })
    (fun t => !t.run && t.cnt == 0 && t.ticks == 0 && !t.gie && t.cs == 1 && t.rst) = true := by decide
/-- A word placed for the next step is the command that step runs. -/
theorem test_with_fetch_word : gives (step (State.reset.withFetchWord 32 0x12)) (fun t => t.run && t.cs == 1) = true := by decide
/-- 30_encoding.md R70 and R71: the inputs of `frc.window.close`. -/
theorem test_program_events : programEvents Config.defaults (expandPseudo .windowClose) = [put 0x3, put 0x8] := by decide
/-- 20_memory.md R47: byte 1 of EST. -/
theorem test_byte_view : readByte { ready [] with est := 0x12345678 } 0x0D = some 0x56 := by decide

/-! ### Witnesses: states and operands that meet the hypotheses of the statements -/

theorem ready_ready (l : List Event) : (ready l).Ready := ⟨test_wf_defaults, rfl, rfl⟩

/-- A running state of the invariant that is not the reset state. -/
def running (l : List Event) : State :=
  { ready l with run := true, cs := 3, cnt := 65535, psc := 63, ticks := 65535, sel := 0x00400003, irqIn := 5, gie := true }

theorem running_inv (l : List Event) : (running l).Inv :=
  ⟨test_wf_defaults, (by decide : (65535 : CounterWord).toNat ≤ Config.defaults.cap),
    (by decide : (63 : BitVec 16).toNat < Config.defaults.maxFactor),
    (by decide : 1 ≤ (3 : BitVec 3).toNat ∧ (3 : BitVec 3).toNat ≤ Config.defaults.k),
    (by decide : (65535 : Word).toNat ≤ Config.defaults.cap),
    ⟨3, by decide, (by decide : 3 ≤ Config.defaults.k), (by decide : (0x00400003 : Word) = Config.defaults.selWord 3)⟩,
    (by decide : (5 : Word).toNat < 2 ^ Config.defaults.nIrq), fun h => by cases h⟩

theorem witness_DecodeOfEncode : Instr.wf 5 (.start 5) = true := by decide
theorem witness_EncodeOfDecode : decode 5 0x52 = .ok (.start 5) := rfl
theorem witness_IllegalWords_reserved_bits : (0x00000080 : Word).toNat / 2 ^ 7 ≠ 0 := by decide
theorem witness_IllegalWords_reserved_op : 0xC ≤ (0x0000000C : Word).toNat % 2 ^ 4 := by decide
theorem witness_IllegalWords_stray_code :
    (0x00000013 : Word).toNat % 2 ^ 4 ≠ 0x2 ∧ (0x00000013 : Word).toNat / 2 ^ 4 % 2 ^ 3 ≠ 0 := by decide
theorem witness_IllegalWords_code_out_of_range :
    (0x00000062 : Word).toNat % 2 ^ 4 = 0x2 ∧ State.reset.cfg.k < (0x00000062 : Word).toNat / 2 ^ 4 % 2 ^ 3 := by decide
theorem witness_IllegalWords_legal : ¬((0x00000052 : Word).toNat / 2 ^ 7 ≠ 0 ∨ 0xC ≤ (0x00000052 : Word).toNat % 2 ^ 4 ∨
    ((0x00000052 : Word).toNat % 2 ^ 4 ≠ 0x2 ∧ (0x00000052 : Word).toNat / 2 ^ 4 % 2 ^ 3 ≠ 0) ∨
    ((0x00000052 : Word).toNat % 2 ^ 4 = 0x2 ∧ State.reset.cfg.k < (0x00000052 : Word).toNat / 2 ^ 4 % 2 ^ 3)) := by decide
theorem witness_OpcodeTableRows : ∃ r ∈ opcodeRows, r.selects 0x52 = true ∧ r.mnemonic = "START" ∧
    (0x52 : Word).toNat / 2 ^ 4 % 2 ^ 3 ≤ 5 := by decide
theorem witness_StepRunsTheCommand : (ready [put 0x52]).Ready ∧ (ready [put 0x52]).inputs = [put 0x52] ∧
    decode (ready [put 0x52]).cfg.k 0x52 = .ok (.start 5) := ⟨ready_ready _, rfl, rfl⟩
theorem witness_StepOnIllegalWord : (ready [put 0x62]).Ready ∧ (ready [put 0x62]).inputs = [put 0x62] ∧
    decode (ready [put 0x62]).cfg.k 0x62 = .error .codeOutOfRange := ⟨ready_ready _, rfl, rfl⟩
theorem witness_CommandCompletes : (ready [put (encode .stop), .host (.read 8 4)]).Ready ∧
    Instr.wf (ready []).cfg.k .stop = true ∧
    (ready [put (encode .stop), .host (.read 8 4)]).inputs = [put (encode .stop), .host (.read (0 + regOffset .ticks) 4)] :=
  ⟨ready_ready _, rfl, rfl⟩
/-- For every statement about a step that gives a next state: a clock edge, a command, a read, a line, a reset. -/
theorem witness_step_next : (∃ t, step (running [.clock]) = .next t) ∧ (∃ t, step (running [put 0x3]) = .next t) ∧
    (∃ t, step (running [.host (.read 4 4)]) = .next t) ∧ (∃ t, step (running [.irq 31 true]) = .next t) ∧
    ∃ t, step (running [.rst true]) = .next t := by
  refine ⟨⟨_, step_clock (by decide) rfl rfl⟩, ⟨_, step_write (r := .cmd) (v := 0x3) ⟨by decide, rfl, rfl⟩ rfl⟩,
    ⟨_, step_read (r := .status) ⟨by decide, rfl, rfl⟩ rfl⟩, ⟨_, step_irq (by decide) (by decide) rfl⟩,
    ⟨_, step_rst (by decide) rfl⟩⟩
theorem witness_EveryEnabledAgentStep : (ready [.irq 31 true]).cfg.wf = true ∧ (ready []).cfg.mapping = .device ∧
    31 < (ready []).cfg.nIrq ∧ (ready []).rst = false := by decide
/-- The clauses of StepStopsOnlyForMeaninglessHostActions each happen: `test_refusals` shows one step of each. -/
theorem witness_StepStops : ∃ s f, step s = .fault f := ⟨ready [.host (.read 32 4)], .outsideWindow 32, rfl⟩
theorem witness_StepRefuses : ∃ s r, step s = .refused r := ⟨ready [.host (.read 5 1)], .narrowOrMisalignedAccess, rfl⟩
theorem witness_ReadReturns : (ready [.host (.read 0x1C 4)]).Ready ∧
    ((0x1C : Nat), BitVec.ofNat 32 (2 ^ (ready []).cfg.width - 1)) ∈ [(0x00, 0x00000000#32), (0x1C, 0x0000FFFF#32)] ∧
    (ready [.host (.read 0x1C 4)]).inputs = [.host (.read ((ready []).cfg.base + 0x1C) 4)] :=
  ⟨ready_ready _, by decide, rfl⟩
theorem witness_ReadsHaveNoSideEffect :
    (ready [.host (.read 4 4), .irq 31 true, .host (.read 0 4), .host (.read 4 4)]).Ready ∧
    (∀ e ∈ [Event.irq 31 true, .host (.read 0 4)],
      (∃ q, e = .host (.read ((ready []).cfg.base + regOffset q) 4)) ∨ ∃ l b, l < (ready []).cfg.nIrq ∧ e = .irq l b) := by
  refine ⟨ready_ready _, fun e he => ?_⟩
  simp only [List.mem_cons, List.not_mem_nil, or_false] at he
  rcases he with rfl | rfl
  · exact .inr ⟨31, true, by decide, rfl⟩
  · exact .inl ⟨.cmd, rfl⟩
theorem witness_WriteToReadOnly : (ready [.host (.write 0x1C 4 5)]).Ready ∧ 0x1C ∈ [0x04, 0x08, 0x10, 0x18, 0x1C] ∧
    (ready [.host (.write 0x1C 4 5)]).inputs = [.host (.write ((ready []).cfg.base + 0x1C) 4 5)] :=
  ⟨ready_ready _, by decide, rfl⟩
theorem witness_WriteToEstOrMul : (ready [.host (.write 0x0C 4 5)]).Ready ∧
    (ready [.host (.write 0x0C 4 5)]).inputs = [.host (.write ((ready []).cfg.base + 0x0C) 4 5)] ∧
    (ready [.host (.write 0x14 4 5)]).inputs = [.host (.write ((ready []).cfg.base + 0x14) 4 5)] :=
  ⟨ready_ready _, rfl, rfl⟩
theorem witness_MeaninglessAccesses : (ready []).cfg.wf = true ∧ (ready []).cfg.mapping = .device ∧
    (ready []).cfg.base ≤ accessAddr (.read 0x1F 1) ∧ accessAddr (.read 0x1F 1) < (ready []).cfg.base + 0x20 ∧
    (ready []).rst = false ∧ ((1 : Nat) ≠ 4 ∨ 0x1F % 4 ≠ 0) := by decide
theorem witness_CommandsKeepTheOtherBytes : (∃ t, exec .tocyc (ready []) = .next t) ∧
    ∀ r ∈ changedRegs .tocyc, 0x0C < (ready []).cfg.base + regOffset r ∨ (ready []).cfg.base + regOffset r + 4 ≤ 0x0C :=
  ⟨⟨_, rfl⟩, by decide⟩
theorem witness_Start : (1 : BitVec 3) ≠ 0 ∧ (ready []).run = false ∧ (ready []).cfg.k < (6 : BitVec 3).toNat ∧
    ∃ t, exec (.start 1) (ready []) = .next t ∧ t.cfg.factor t.cs.toNat ≤ (ready []).psc.toNat + 1 :=
  ⟨by decide, rfl, by decide, _, rfl, by decide⟩
theorem witness_Stop : ∃ t u, exec .cfg (running []) = .next t ∧ exec .stop t = .next u := ⟨_, _, rfl, rfl⟩
theorem witness_Tocyc : (running []).cs.toNat = 2 + 1 ∧ (running []).cfg.divSet[2]? = some 64 ∧ (ready []).cs = 1 ∧
    (ready []).cfg.divSet[0]? = some 1 := by decide
theorem witness_Tous : (ready []).mul = 0 ∧ (running []).ticks.toNat ≤ 65535 ∧ (running []).mul.toNat ≤ 65537 := by decide
theorem witness_TocycIsExact : (running []).cfg.wf = true ∧ 1 ≤ (running []).cs.toNat ∧ (running []).cs.toNat ≤ 5 ∧
    (running []).cfg.k = 5 ∧ (running []).ticks.toNat ≤ (running []).cfg.cap ∧
    (running []).cfg.cap * (running []).cfg.maxFactor ≤ 2 ^ 32 - 1 := by decide
theorem witness_ScalerPure : ∃ t t', exec .tocyc (running []) = .next t ∧ exec .tocyc { running [] with sel := 0 } = .next t' ∧
    (running []).ticks = ({ running [] with sel := 0 } : State).ticks := ⟨_, _, rfl, rfl, rfl⟩
theorem witness_GsaveGrest : ∃ t u v w, exec .gdis (running []) = .next t ∧ exec .gsave t = .next u ∧ v.saved = u.saved ∧
    exec .grest v = .next w := ⟨_, _, _, _, rfl, rfl, rfl, rfl⟩
theorem witness_Gen : 31 < (running []).cfg.nIrq ∧ ∃ t, exec .gen (running []) = .next t := ⟨by decide, _, rfl⟩
/-- Each clause of the selection's ranges at its boundary: codes 1, 3 and K. -/
theorem witness_Selection : 65535 ≤ Config.defaults.cap * Config.defaults.factor 1 ∧
    Config.defaults.cap * Config.defaults.factor 2 < 524281 ∧ 4194240 ≤ Config.defaults.cap * Config.defaults.factor 3 ∧
    Config.defaults.cap * Config.defaults.factor Config.defaults.k < 67107841 := by decide
theorem witness_SelectedFactor : ∃ t u v, (ready []).est.toNat ≤ (ready []).cfg.cap * (ready []).cfg.maxFactor ∧
    exec .select (ready []) = .next t ∧ exec .cfg t = .next u ∧ exec (.start 0) u = .next v :=
  ⟨_, _, _, by decide, rfl, rfl, rfl⟩
/-- Each clause of a clock edge: stopped, no tick, wrap, tick. -/
theorem witness_ClockEdge : (running [.clock]).cs.toNat = 2 + 1 ∧ (running [.clock]).cfg.divSet[2]? = some 64 ∧
    (ready [.clock]).run = false ∧ (62 : BitVec 16).toNat + 1 < 64 ∧ 64 ≤ (running [.clock]).psc.toNat + 1 ∧
    (running [.clock]).cnt.toNat = 2 ^ (running [.clock]).cfg.width - 1 ∧
    (65534 : CounterWord).toNat ≠ 2 ^ (running [.clock]).cfg.width - 1 := by decide
theorem witness_ClosedForm : (running []).run = true ∧
    (running []).psc.toNat < (running []).cfg.factor (running []).cs.toNat ∧
    (running []).cnt.toNat ≤ (running []).cfg.cap := by decide
theorem witness_OtherCommands : (∃ t, exec .select (running []) = .next t) ∧
    (∃ v e t, decode (running []).cfg.k v = .error e ∧ perform v (running []) = .next t) ∧
    ∃ t, busWrite .est 5 (running []) = .next t := ⟨⟨_, rfl⟩, ⟨0xC, .reservedOp, _, rfl, rfl⟩, _, rfl⟩
/-- The writers' statements: steps that change a register by its writer. -/
theorem witness_Writers : gives (step (running [.clock])) (fun t => t.cnt != (running []).cnt && t.ovf) = true ∧
    gives (step (running [put 0xC])) (fun t => t.ill) = true ∧
    gives (step { running [put 0xB] with ill := true }) (fun t => !t.ill) = true ∧
    gives (step { running [put 0x1] with ovf := true }) (fun t => !t.ovf) = true := by decide
theorem witness_NoStepReadsFlags :
    nextEvent (running [put 0x5]) ≠ .host (.read ((running []).cfg.base + regOffset .status) 4) := by decide
theorem witness_GateLevels : (ready []).Ready ∧ 31 < (ready []).cfg.nIrq ∧ (ready []).gie = false ∧
    (ready [.irq 31 true, .irq 31 false, put (encode .gen)]).inputs.head? = some (.irq 31 true) :=
  ⟨ready_ready _, by decide, rfl, rfl⟩
theorem witness_NestedWindows : (ready [put 7, put 7, put 8]).Ready ∧ (ready []).gie = false ∧
    (ready [put 7, put 7, put 8]).inputs = commandWrite (ready []).cfg (encode .gsave) ::
      commandWrite (ready []).cfg (encode .gsave) ::
      (List.replicate (0 + 1) (commandWrite (ready []).cfg (encode .grest)) ++ []) := ⟨ready_ready _, rfl, by decide⟩
theorem witness_DeliveryStaysSuppressed : (ready [.clock]).gie = false ∧ (ready [.clock]).saved = false ∧
    ¬performs (ready [.clock]) .gen ∧ ¬performs (ready [.clock]) .grest := by
  refine ⟨rfl, rfl, ?_, ?_⟩ <;> rintro ⟨v, hw, -⟩ <;> cases hw
theorem witness_Reset : (running [.rst true]).cfg.wf = true ∧ (running [.rst true]).inputs = [.rst true] := by decide
/-- A held reset: the state in which `rst` has been asserted. -/
theorem witness_ResetHolds : ({ ready [.clock] with rst := true } : State).Inv ∧
    ∃ t, step { ready [.clock] with rst := true } = .next t :=
  ⟨⟨by decide, by decide, by decide, by decide, by decide, ⟨1, by decide, by decide, rfl⟩, by decide, fun _ => rfl⟩,
    _, agentStep_announced (s := { ready [.clock] with rst := true }) (by decide) rfl⟩
theorem witness_Release : (running [.rst true, .rst false]).cfg.wf = true ∧
    (running [.rst true, .rst false]).cfg.mapping = .device ∧
    ({ ready [.rst false] with rst := true } : State).Inv ∧
    nextEvent { ready [.rst false] with rst := true } = .rst false ∧
    ∃ t, step { ready [.rst false] with rst := true } = .next t :=
  ⟨by decide, rfl,
    ⟨by decide, by decide, by decide, by decide, by decide, ⟨1, by decide, by decide, rfl⟩, by decide, fun _ => rfl⟩,
    rfl, _, step_release (s := { ready [.rst false] with rst := true }) (by decide) rfl⟩
theorem witness_EveryStepKeepsInv : (running [.clock]).Inv ∧ ∃ t, step (running [.clock]) = .next t :=
  ⟨running_inv _, _, step_clock (by decide) rfl rfl⟩
theorem witness_Hidden : nextEvent (running [put 0x5]) ≠ .clock ∧ ¬performs (running [put 0x5]) .stop := by
  refine ⟨by decide, ?_⟩
  rintro ⟨v, hw, hd⟩
  cases hw
  cases hd
theorem witness_Measures : (running (programEvents Config.defaults
      [.cmd .cfg, .cmd (.start 3), .workload 64, .cmd .stop])).Inv ∧ (3 : BitVec 3).toNat ≤ Config.defaults.k :=
  ⟨running_inv _, by decide⟩
theorem witness_MeasurementSequence : (running (programEvents Config.defaults (measurement 64 64))).Inv ∧
    64 ≤ (64 : Word).toNat ∧ (64 : Word).toNat ≤ Config.defaults.cap * Config.defaults.maxFactor :=
  ⟨running_inv _, by decide⟩

end Sys2Proof.Tests
end

section
/-! SUPPORT. Proofs about the register window: what a read and a write of a read-only register leave unchanged
(20_memory.md R44, R45, R49). -/

open Sys2Proof Sys2Proof.Machine

namespace Sys2Proof.Machine

/-! ### Writes of a read-only register (20_memory.md R49) -/

theorem busWrite_readOnly {r : Reg} (hr : Reg.readOnly r = true) (v : Word) (s : State) :
    busWrite r v s = .next (setIll s) := by
  cases r
  case cmd | est | mul => cases hr
  all_goals rfl

/-- A ready block's step on an announced write of a read-only register. -/
theorem step_write_readOnly {s : State} (hs : s.Ready) {r : Reg} (hr : Reg.readOnly r = true) {v : Word} {rest : List Event}
    (h : s.inputs = .host (.write (s.cfg.base + regOffset r) 4 v) :: rest) :
    step s = .next { s with inputs := rest, rdata := none, ill := true } :=
  (step_write hs h).trans (busWrite_readOnly hr v _)

theorem readOnly_at_offset {off : Nat} (h : off ∈ [0x04, 0x08, 0x10, 0x18, 0x1C]) :
    ∃ r, Reg.readOnly r = true ∧ regOffset r = off := by
  simp only [List.mem_cons, List.not_mem_nil, or_false] at h
  obtain rfl | rfl | rfl | rfl | rfl := h
  · exact ⟨.status, rfl, rfl⟩
  · exact ⟨.ticks, rfl, rfl⟩
  · exact ⟨.sel, rfl, rfl⟩
  · exact ⟨.res, rfl, rfl⟩
  · exact ⟨.capacity, rfl, rfl⟩

/-! ### What no register shows (10_state.md R40) -/

/-- The ports and the announced inputs are not part of any register's read value. -/
theorem readReg_ports (s : State) (w : Word) (d : Option Word) (l : List Event) (r : Reg) :
    readReg { s with irqIn := w, rdata := d, inputs := l } r = readReg s r := by cases r <;> rfl

@[simp] theorem readReg_drive (v : Word) (s : State) (r : Reg) : readReg (drive v s) r = readReg s r :=
  readReg_ports s s.irqIn (some v) s.inputs r

@[simp] theorem readReg_setLine (l : Nat) (b : Bool) (s : State) (r : Reg) : readReg (setLine l b s) r = readReg s r :=
  readReg_ports s (setLine l b s).irqIn s.rdata s.inputs r

/-! ### Steps on reads and line changes (20_memory.md R45) -/

/-- A read or a line change, when it gives a next state at all, only drives the read port or the line. -/
theorem step_next_of_read_or_line {s t : State} (h : step s = .next t)
    (he : (∃ addr n, nextEvent s = .host (.read addr n)) ∨ ∃ l b, nextEvent s = .irq l b) :
    (∃ v, t = drive v (afterEvent s)) ∨ ∃ l b, t = setLine l b (afterEvent s) := by
  have noWrite (r : Reg) (v : Word) : ¬writes s r v := by
    obtain ⟨_, _, he⟩ | ⟨_, _, he⟩ := he <;> simp [writes, he]
  obtain ⟨-, hc⟩ := step_next h
  cases hc with
  | read r _ _ ht => exact .inl ⟨readReg s r, ht⟩
  | line l b _ _ ht => exact .inr ⟨l, b, ht⟩
  | command i hp => exact absurd hp fun ⟨v, hw, _⟩ => noWrite .cmd v hw
  | offence hp => simp [offends, noWrite] at hp
  | estimate v hw => exact absurd hw (noWrite .est v)
  | multiplier v hw => exact absurd hw (noWrite .mul v)
  | clockHeld hn | clock hn | assert hn | release hn => simp_all [resets]

/-- An announced agent step that no register notices: a 32-bit read of a register, or a change of a line that exists. -/
def Unnoticed (c : Config) (e : Event) : Prop :=
  (∃ q, e = .host (.read (c.base + regOffset q) 4)) ∨ ∃ l b, l < c.nIrq ∧ e = .irq l b

theorem step_unnoticed {s : State} (hs : s.Ready) {e : Event} (he : Unnoticed s.cfg e) {rest : List Event}
    (h : s.inputs = e :: rest) : ∃ w d, step s = .next { s with irqIn := w, rdata := d, inputs := rest } := by
  obtain ⟨q, rfl⟩ | ⟨l, b, hl, rfl⟩ := he
  · exact ⟨_, _, step_read hs h⟩
  · exact ⟨_, _, step_irq hs.1 hl h⟩

/-- A run of unnoticed agent steps changes the ports only. -/
theorem runSteps_unnoticed {rest mid : List Event} {s : State} (hs : s.Ready) (hmid : ∀ e ∈ mid, Unnoticed s.cfg e)
    (h : s.inputs = mid ++ rest) :
    ∃ w d, runSteps mid.length s = .next { s with irqIn := w, rdata := d, inputs := rest } := by
  induction mid generalizing s with
  | nil => exact ⟨s.irqIn, s.rdata, by subst h; rfl⟩
  | cons e mid ih =>
    obtain ⟨he, hmid⟩ := List.forall_mem_cons.1 hmid
    obtain ⟨w, d, hstep⟩ := step_unnoticed hs he h
    obtain ⟨w', d', hrun⟩ := ih (s := { s with irqIn := w, rdata := d, inputs := mid ++ rest }) hs hmid rfl
    exact ⟨w', d', (runSteps_succ hstep).trans hrun⟩

/-- A run goes on from the state its first `m` steps give. -/
theorem runSteps_add {m n : Nat} {s t : State} (h : runSteps m s = .next t) : runSteps (m + n) s = runSteps n t := by
  induction m generalizing s with
  | zero =>
    obtain rfl : s = t := by simpa [runSteps] using h
    rw [Nat.zero_add]
  | succ m ih =>
    rw [Nat.add_right_comm]
    cases hs : step s with
    | next s' => exact (runSteps_succ hs).trans (ih ((runSteps_succ hs).symm.trans h))
    | fault f => simp [runSteps, hs] at h
    | refused r => simp [runSteps, hs] at h

/-- A read after unnoticed agent steps finds the value the register had before them. -/
theorem runSteps_unnoticed_read {mid rest : List Event} {r : Reg} {s : State} (hs : s.Ready)
    (hmid : ∀ e ∈ mid, Unnoticed s.cfg e)
    (h : s.inputs = mid ++ .host (.read (s.cfg.base + regOffset r) 4) :: rest) :
    ∃ u, runSteps (mid.length + 1) s = .next u ∧ u.rdata = some (readReg s r) := by
  obtain ⟨w, d, hrun⟩ := runSteps_unnoticed hs hmid h
  have hread := step_read (r := r) (rest := rest)
    (s := { s with irqIn := w, rdata := d, inputs := .host (.read (s.cfg.base + regOffset r) 4) :: rest }) hs rfl
  exact ⟨_, (runSteps_add hrun).trans (runSteps_succ hread), congrArg some (readReg_ports s w d _ r)⟩

end Sys2Proof.Machine

namespace Sys2Proof.Proofs

/-- Settles O13: each listed offset is a register's, and the listed word is that register's read value. -/
theorem readReturnsTheRegisterAtItsOffset : Obligations.ReadReturnsTheRegisterAtItsOffset := by
  intro s off v rest hs hrow h
  simp only [List.mem_cons, Prod.mk.injEq, List.not_mem_nil, or_false] at hrow
  obtain ⟨rfl, rfl⟩ | ⟨rfl, rfl⟩ | ⟨rfl, rfl⟩ | ⟨rfl, rfl⟩ | ⟨rfl, rfl⟩ | ⟨rfl, rfl⟩ | ⟨rfl, rfl⟩ | ⟨rfl, rfl⟩ := hrow
  · exact step_read hs (r := .cmd) h
  · exact step_read hs (r := .status) h
  · exact step_read hs (r := .ticks) h
  · exact step_read hs (r := .est) h
  · exact step_read hs (r := .sel) h
  · exact step_read hs (r := .mul) h
  · exact step_read hs (r := .res) h
  · exact step_read hs (r := .capacity) h

/-- Settles O15: a read or a line change touches the ports only, so a run of them leaves every register's read value, and
the second read finds what the first one found. -/
theorem readsHaveNoSideEffect : Obligations.ReadsHaveNoSideEffect := by
  refine ⟨fun s t h he => ?_, fun s r mid rest hs hmid h => ?_⟩
  · obtain ⟨v, rfl⟩ | ⟨l, b, rfl⟩ := step_next_of_read_or_line h he <;>
      simp [SameCounter, SameOperands, SameGate, readReg_afterEvent]
  · have hfirst := step_read hs h
    obtain ⟨u, hrun, hu⟩ :=
      runSteps_unnoticed_read (mid := _ :: mid) hs (List.forall_mem_cons.2 ⟨.inl ⟨r, rfl⟩, hmid⟩) h
    exact ⟨_, u, runSteps_succ hfirst, hrun, hu.symm, rfl⟩

/-- Settles O16: the five offsets are those of the read-only registers, and a write of one only sets ILL. -/
theorem writeToReadOnlyRegisterOnlySetsIll : Obligations.WriteToReadOnlyRegisterOnlySetsIll := by
  intro s off v rest hs hoff h
  obtain ⟨r, hr, rfl⟩ := readOnly_at_offset hoff
  exact step_write_readOnly hs hr h

end Sys2Proof.Proofs
end

section
/-! SUPPORT. Proofs about the command word: which words are illegal (30_encoding.md R68), and how the opcode table's rows
select the words of their commands (R73). -/

open Sys2Proof Sys2Proof.Machine

namespace Sys2Proof.Machine

/-! ### Performing a word (30_encoding.md R63) -/

theorem perform_of_decode_ok {s : State} {v : Word} {i : Instr} (h : decode s.cfg.k v = .ok i) :
    perform v s = exec i s := by simp only [perform, h]

theorem perform_of_decode_error {s : State} {v : Word} {e : Illegal} (h : decode s.cfg.k v = .error e) :
    perform v s = .next { s with ill := true } := by simp only [perform, h, execIllegal, setIll]

end Sys2Proof.Machine

namespace Sys2Proof

/-! ### The kinds of illegal words, read off the value (30_encoding.md R68) -/

/-- `decode_error_iff` with the three fields written as parts of the word's value. -/
theorem decode_error_iff_toNat (k : Nat) (v : Word) :
    (∃ e, decode k v = .error e) ↔
      v.toNat / 2 ^ 7 ≠ 0 ∨ 0xC ≤ v.toNat % 2 ^ 4 ∨ (v.toNat % 2 ^ 4 ≠ 0x2 ∧ v.toNat / 2 ^ 4 % 2 ^ 3 ≠ 0) ∨
        (v.toNat % 2 ^ 4 = 0x2 ∧ k < v.toNat / 2 ^ 4 % 2 ^ 3) := by
  rw [decode_error_iff, fieldOp_eq, ← fieldRsv_toNat, ← fieldCs_toNat]
  simp only [ne_eq, ← BitVec.toNat_inj, BitVec.ofNat_eq_ofNat, BitVec.toNat_ofNat, Nat.zero_mod]

/-! ### A word and its command determine each other (30_encoding.md R62 to R67) -/

theorem encode_eq_of_fields {v : Word} {i : Instr} (hr : fieldRsv v = 0) (ho : fieldOp v = (opcode i).toNat)
    (hc : fieldCs v = codeField i) : encode i = v := by
  apply BitVec.eq_of_toNat_eq
  simp [encode_toNat, word_of_fields v, hr, ho, hc]

theorem encode_of_decode {k : Nat} {v : Word} {i : Instr} (h : decode k v = .ok i) : encode i = v :=
  have ⟨hr, ho, hc, _⟩ := decode_ok h
  encode_eq_of_fields hr ho hc

theorem decode_encode {k : Nat} {i : Instr} (h : i.wf k = true) : decode k (encode i) = .ok i := by
  cases i
  case start cs =>
    have hk : cs.toNat ≤ k := of_decide_eq_true h
    simp [decode, opcode, codeField, hk]
  all_goals rfl

/-- With the largest K every CS value is a code, so every command is well formed. -/
theorem wf_seven (i : Instr) : i.wf 7 = true := by
  cases i
  case start cs => exact decide_eq_true (Nat.le_of_lt_succ cs.isLt)
  all_goals rfl

theorem encode_injective {i j : Instr} (h : encode i = encode j) : i = j :=
  Except.ok.inj ((decode_encode (wf_seven i)).symm.trans (h ▸ decode_encode (wf_seven j)))

theorem wf_iff_code_le (k : Nat) (i : Instr) : i.wf k = true ↔ (i.mnemonic = "START" → (codeField i).toNat ≤ k) := by
  cases i <;> simp [Instr.wf, Instr.mnemonic, codeField]

/-! ### The row of a command (30_encoding.md R73) -/

/-- The opcode table's row for a command: START's leaves the CS field free, every other fixes the whole word. -/
def Instr.row : Instr → OpRow
  | .start _ => ⟨"START", 0x00000002, 0xFFFFFF8F⟩
  | i => ⟨i.mnemonic, encode i, 0xFFFFFFFF⟩

@[simp] theorem row_mnemonic (i : Instr) : i.row.mnemonic = i.mnemonic := by cases i <;> rfl

/-- The table's rows are the commands' rows. -/
theorem mem_opcodeRows {r : OpRow} : r ∈ opcodeRows ↔ ∃ i : Instr, i.row = r := by
  constructor
  · intro h
    have htable : opcodeRows = [Instr.nop, .cfg, .start 0, .stop, .select, .tocyc, .tous, .gsave, .grest, .gen, .gdis,
      .clrerr].map Instr.row := by decide
    obtain ⟨i, -, hi⟩ := List.mem_map.1 (htable ▸ h)
    exact ⟨i, hi⟩
  · rintro ⟨i, rfl⟩
    cases i <;> exact List.contains_iff_mem.1 rfl

theorem row_mask (i : Instr) : i.row.mask = if i.mnemonic = "START" then 0xFFFFFF8F else 0xFFFFFFFF := by
  cases i <;> rfl

/-- A mask that is all ones on a field leaves the field as it is. -/
theorem extractLsb'_and_of_ones {start len : Nat} {v mask : Word} (h : mask.extractLsb' start len = BitVec.allOnes len) :
    (v &&& mask).extractLsb' start len = v.extractLsb' start len := by
  rw [BitVec.extractLsb'_and, h, BitVec.and_allOnes]

/-- START's mask clears the CS field and keeps RSV and OP, so a word it takes to START's is START's with the word's CS. -/
theorem encode_start_of_masked {v : Word} (h : v &&& 0xFFFFFF8F = 0x00000002) : encode (.start (fieldCs v)) = v := by
  have hr : fieldRsv (v &&& 0xFFFFFF8F) = fieldRsv v := extractLsb'_and_of_ones rfl
  have ho : fieldOp (v &&& 0xFFFFFF8F) = fieldOp v := congrArg BitVec.toNat (extractLsb'_and_of_ones rfl)
  rw [h] at hr ho
  exact encode_eq_of_fields hr.symm ho.symm rfl

theorem row_selects_encode (i : Instr) : i.row.selects (encode i) = true := by
  cases i
  case start cs =>
    revert cs
    decide
  all_goals rfl

/-- A row selects only words of its own commands. -/
theorem exists_encode_of_row_selects {i : Instr} {v : Word} (h : i.row.selects v = true) :
    ∃ j : Instr, j.row = i.row ∧ encode j = v := by
  replace h : v &&& i.row.mask = i.row.bits := eq_of_beq h
  cases i
  case start cs => exact ⟨.start (fieldCs v), rfl, encode_start_of_masked h⟩
  all_goals exact ⟨_, rfl, h.symm.trans BitVec.and_allOnes⟩

/-- No word selects two rows: it is the word of one command at most. -/
theorem row_eq_of_selects {i j : Instr} {v : Word} (hi : i.row.selects v = true) (hj : j.row.selects v = true) :
    i.row = j.row := by
  obtain ⟨i', hi', hv⟩ := exists_encode_of_row_selects hi
  obtain ⟨j', hj', hw⟩ := exists_encode_of_row_selects hj
  obtain rfl : i' = j' := encode_injective (hv.trans hw.symm)
  exact hi'.symm.trans hj'

/-- A command's word decodes to a command of its mnemonic and CS field exactly when the command is well formed. -/
theorem wf_iff_decode_encode (k : Nat) (i : Instr) :
    i.wf k = true ↔ ∃ j, decode k (encode i) = .ok j ∧ j.mnemonic = i.mnemonic ∧ codeField j = codeField i := by
  constructor
  · exact fun h => ⟨i, decode_encode h, rfl, rfl⟩
  · rintro ⟨j, h, -, -⟩
    obtain rfl : j = i := encode_injective (encode_of_decode h)
    obtain ⟨-, -, -, hwf⟩ := decode_ok h
    exact hwf

end Sys2Proof

namespace Sys2Proof.Proofs

/-- Settles O4: the four kinds are those `decode` rejects, and `perform` follows `decode`. -/
theorem illegalWordsAreExactlyTheFourKinds : Obligations.IllegalWordsAreExactlyTheFourKinds := by
  intro s v
  rw [← decode_error_iff_toNat]
  constructor
  · rintro ⟨e, he⟩
    exact ⟨⟨e, he⟩, perform_of_decode_error he⟩
  · intro hlegal
    obtain ⟨i, hi⟩ := (decode_total s.cfg.k v).resolve_right hlegal
    exact ⟨i, hi, perform_of_decode_ok hi⟩

/-- Settles O6: the table's rows are the commands' rows, and a row selects exactly the words of its commands. -/
theorem opcodeTableRowsSelectTheDecodedCommand : Obligations.OpcodeTableRowsSelectTheDecodedCommand := by
  unfold Obligations.OpcodeTableRowsSelectTheDecodedCommand
  simp only [mem_opcodeRows, forall_exists_index, forall_apply_eq_imp_iff, row_mnemonic]
  refine ⟨rfl, row_mask, fun v i j => row_eq_of_selects, fun k v i h => ?_, fun k v i h => ?_⟩
  · exact ⟨i.row, ⟨i, rfl⟩, row_mnemonic i, encode_of_decode h ▸ row_selects_encode i⟩
  · obtain ⟨j, hrow, rfl⟩ := exists_encode_of_row_selects h
    have hm : j.mnemonic = i.mnemonic := by simpa using congrArg OpRow.mnemonic hrow
    rw [← fieldCs_toNat, fieldCs_encode, ← hm, ← wf_iff_code_le, wf_iff_decode_encode]
    simp only [BitVec.toNat_inj]

end Sys2Proof.Proofs
end

section
/-! SUPPORT. Proofs about the counter unit: the clock edge in each of its cases (40_counter.md R80), and CFG, which makes the
edge before it of no effect (R76). -/

open Sys2Proof Sys2Proof.Machine

namespace Sys2Proof.Machine

/-! ### The clock step, one equation per case (40_counter.md R80, R82) -/

section

variable {s : State}

theorem clockStep_of_stopped (hrun : s.run = false) : clockStep s = s := by
  simp [clockStep, hrun]

/-- The edges that do not complete a tick advance the prescaler phase. -/
theorem clockStep_of_psc_lt (hrun : s.run = true) (hpsc : s.psc.toNat + 1 < s.cfg.factor s.cs.toNat) :
    clockStep s = { s with psc := s.psc + 1 } := by
  simp [clockStep, hrun, hpsc]

theorem clockStep_of_factor_le (hrun : s.run = true) (hpsc : s.cfg.factor s.cs.toNat ≤ s.psc.toNat + 1) :
    clockStep s = tick s := by
  simp [clockStep, hrun, hpsc]

/-- A tick at CAP wraps: counting continues from 0, with OVF set. -/
theorem clockStep_of_cnt_eq_cap (hrun : s.run = true) (hpsc : s.cfg.factor s.cs.toNat ≤ s.psc.toNat + 1)
    (hcnt : s.cnt.toNat = s.cfg.cap) : clockStep s = { s with psc := 0, cnt := 0, ovf := true } :=
  (clockStep_of_factor_le hrun hpsc).trans (if_pos hcnt)

theorem clockStep_of_cnt_ne_cap (hrun : s.run = true) (hpsc : s.cfg.factor s.cs.toNat ≤ s.psc.toNat + 1)
    (hcnt : s.cnt.toNat ≠ s.cfg.cap) : clockStep s = { s with psc := 0, cnt := s.cnt + 1 } :=
  (clockStep_of_factor_le hrun hpsc).trans (if_neg hcnt)

end

/-! ### CFG (40_counter.md R76) -/

theorem exec_cfg (s : State) : exec .cfg s = .next { s with run := false, cnt := 0, psc := 0, ovf := false } := rfl

/-- CFG overwrites everything a clock step can write, so it makes no difference whether the step came before it. -/
theorem exec_cfg_clockStep (s : State) : exec .cfg (clockStep s) = exec .cfg s := by
  rw [clockStep_frame, exec_cfg, exec_cfg]

end Sys2Proof.Machine

namespace Sys2Proof.Proofs

/-- Settles O35: the step on an announced clock edge is the clock step, and each clause is one of its cases. -/
theorem clockEdgeAdvancesTheCounter : Obligations.ClockEdgeAdvancesTheCounter := by
  intro s n f rest hwf hr h hcs hf
  obtain rfl : s.cfg.factor s.cs.toNat = f := hcs ▸ Config.factor_of_getElem hf
  rw [step_clock hwf hr h]
  simp only [Host.Outcome.next.injEq]
  refine ⟨fun hrun => ?stopped, fun hrun hpsc => ?noTick, fun hrun hpsc hcnt => ?wrap, fun hrun hpsc hcnt => ?count⟩
  case stopped => exact clockStep_of_stopped hrun
  case noTick => exact clockStep_of_psc_lt hrun hpsc
  case wrap => exact clockStep_of_cnt_eq_cap hrun hpsc hcnt
  case count => exact clockStep_of_cnt_ne_cap hrun hpsc hcnt

/-- Settles O21: the full effect of CFG is its definition, and it covers all that a clock step writes. -/
theorem cfgStopsAndZeroesTheCounter : Obligations.CfgStopsAndZeroesTheCounter :=
  ⟨by decide, exec_cfg, exec_cfg_clockStep⟩

end Sys2Proof.Proofs
end

section
/-! SUPPORT. Proofs about the interrupt gate: what its four commands write and what they leave to the counter
(42_gate.md R95 to R98, R100), the one level of SAVED (R99), and the lines it passes (R93, R94). -/

open Sys2Proof Sys2Proof.Machine

namespace Sys2Proof.Machine

/-! ### The gate commands and the counter commands, inverted (42_gate.md R95 to R98; 40_counter.md R76 to R79) -/

section

variable {s t : State}

theorem exec_gsave_iff : exec .gsave s = .next t ↔ { s with saved := s.gie, gie := false } = t :=
  iff_of_eq (Host.Outcome.next.injEq ..)

theorem exec_grest_iff : exec .grest s = .next t ↔ { s with gie := s.saved } = t :=
  iff_of_eq (Host.Outcome.next.injEq ..)

theorem exec_gen_iff : exec .gen s = .next t ↔ { s with gie := true } = t :=
  iff_of_eq (Host.Outcome.next.injEq ..)

theorem exec_gdis_iff : exec .gdis s = .next t ↔ { s with gie := false } = t :=
  iff_of_eq (Host.Outcome.next.injEq ..)

theorem exec_start_iff {cs : BitVec 3} :
    exec (.start cs) s = .next t ↔ { s with cs := startCode cs s.sel, run := true } = t :=
  iff_of_eq (Host.Outcome.next.injEq ..)

theorem exec_stop_iff : exec .stop s = .next t ↔ { s with run := false, ticks := s.cnt.setWidth 32 } = t :=
  iff_of_eq (Host.Outcome.next.injEq ..)

/-- SAVED has one writer among the commands (10_state.md R33). -/
theorem exec_saved {i : Instr} (hi : i ≠ .gsave) (h : exec i s = .next t) : t.saved = s.saved := by
  cases i
  case gsave => exact absurd rfl hi
  all_goals
    obtain rfl := Host.Outcome.next.inj h
    rfl

theorem clockEdge_sameGate (h : clockEdge s = .next t) : SameGate s t := by
  obtain rfl := Host.Outcome.next.inj h
  cases s.rst
  · exact ⟨clockStep_gie s, clockStep_saved s⟩
  · exact ⟨rfl, rfl⟩

end

/-! ### The gate's output (42_gate.md R93) -/

theorem irqOut_of_lt {s : State} {i : Nat} (hi : i < s.cfg.nIrq) : irqOut s i = (s.irqIn.getLsbD i && s.gie) := by
  simp [irqOut, hi]

/-! ### Steps on a command (30_encoding.md R63) -/

/-- A ready block's step on an announced write of a command's word. -/
theorem step_command {s : State} (hs : s.Ready) {i : Instr} (hi : i.wf s.cfg.k = true) {rest : List Event}
    (h : s.inputs = commandWrite s.cfg (encode i) :: rest) : step s = exec i { s with inputs := rest, rdata := none } :=
  (step_write hs (r := .cmd) h).trans (perform_of_decode_ok (decode_encode hi))

theorem step_gsave {s : State} (hs : s.Ready) {rest : List Event}
    (h : s.inputs = commandWrite s.cfg (encode .gsave) :: rest) :
    step s = .next { s with inputs := rest, rdata := none, saved := s.gie, gie := false } :=
  (step_command hs rfl h).trans (exec_gsave_iff.2 rfl)

theorem step_grest {s : State} (hs : s.Ready) {rest : List Event}
    (h : s.inputs = commandWrite s.cfg (encode .grest) :: rest) :
    step s = .next { s with inputs := rest, rdata := none, gie := s.saved } :=
  (step_command hs rfl h).trans (exec_grest_iff.2 rfl)

theorem step_gen {s : State} (hs : s.Ready) {rest : List Event}
    (h : s.inputs = commandWrite s.cfg (encode .gen) :: rest) :
    step s = .next { s with inputs := rest, rdata := none, gie := true } :=
  (step_command hs rfl h).trans (exec_gen_iff.2 rfl)

theorem performs_unique {s : State} {i j : Instr} (hi : performs s i) (hj : performs s j) : i = j := by
  obtain ⟨v, hv, hdv⟩ := hi
  obtain ⟨w, hw, hdw⟩ := hj
  obtain rfl : v = w := by simpa using hv.symm.trans hw
  exact Except.ok.inj (hdv.symm.trans hdw)

/-- The word of a command is no illegal word, and it is written to no read-only register. -/
theorem not_offends_of_performs {s : State} {i : Instr} (hp : performs s i) : ¬offends s := by
  obtain ⟨v, hv, hd⟩ := hp
  simp only [writes] at hv
  simp [offends, writes, hv, hd, regOffset]

/-- A step that is handed a command can only be that command's. -/
theorem exec_of_performs {s t : State} (h : step s = .next t) {i : Instr} (hp : performs s i) :
    exec i (afterEvent s) = .next t := by
  have ⟨v, hv, _⟩ := hp
  simp only [writes] at hv
  obtain ⟨-, hc⟩ := step_next h
  cases hc with
  | command j hj _ ht => exact performs_unique hj hp ▸ ht
  | offence ho => exact absurd ho (not_offends_of_performs hp)
  | estimate w hw | multiplier w hw => simp [writes, hv, regOffset] at hw
  | read _ he | clockHeld he | clock he | line _ _ he | assert he | release he => simp [resets, hv] at he

/-! ### SAVED over a step, and over a row of GRESTs (42_gate.md R99) -/

/-- No step but a GSAVE and a reset writes SAVED. -/
theorem step_saved {s t : State} (h : step s = .next t) (hg : ¬performs s .gsave) :
    t.saved = s.saved ∨ (resets s ∧ t.saved = false) := by
  obtain ⟨-, hc⟩ := step_next h
  cases hc with
  | command i hp _ ht =>
    have hi : i ≠ .gsave := by
      rintro rfl
      exact hg hp
    exact .inl ((exec_saved hi ht).trans (afterEvent_saved s))
  | assert he ht => exact .inr ⟨he, by simp [ht]⟩
  | read _ _ _ ht | offence _ _ ht | estimate _ _ _ ht | multiplier _ _ _ ht | clockHeld _ _ ht | clock _ _ ht
  | line _ _ _ _ ht | release _ ht => exact .inl (by simp [ht])

/-- Once GIE holds the saved enable, GRESTs keep both: each restores the same value. -/
theorem runSteps_grest {n : Nat} {s : State} {rest : List Event} (hs : s.Ready) (hg : s.gie = s.saved)
    (h : s.inputs = List.replicate n (commandWrite s.cfg (encode .grest)) ++ rest) :
    ∃ t, runSteps n s = .next t ∧ t.saved = s.saved ∧ t.gie = s.saved := by
  induction n generalizing s with
  | zero => exact ⟨s, rfl, rfl, hg⟩
  | succ n ih =>
    rw [runSteps_succ (step_grest hs h)]
    exact ih hs rfl rfl

/-- A GSAVE with GIE = 0 saves a 0, and the GRESTs after it restore that 0. -/
theorem runSteps_gsave_grest {n : Nat} {s : State} {rest : List Event} (hs : s.Ready) (hgie : s.gie = false)
    (h : s.inputs = commandWrite s.cfg (encode .gsave) ::
      (List.replicate n (commandWrite s.cfg (encode .grest)) ++ rest)) :
    ∃ t, runSteps (n + 1) s = .next t ∧ t.saved = false ∧ t.gie = false := by
  rw [runSteps_succ (step_gsave hs h), hgie]
  exact runSteps_grest hs rfl rfl

/-! ### Steps on a level change (42_gate.md R93, R94) -/

/-- A level change that gives a next state is one of a line that exists. -/
theorem step_irq_next {s t : State} (hwf : s.cfg.wf = true) {l : Nat} {b : Bool} {rest : List Event}
    (h : s.inputs = .irq l b :: rest) (hstep : step s = .next t) :
    l < s.cfg.nIrq ∧ t = setLine l b { s with inputs := rest, rdata := none } := by
  by_cases hl : l < s.cfg.nIrq
  · exact ⟨hl, Host.Outcome.next.inj (hstep.symm.trans (step_irq hwf hl h))⟩
  · simp [agentStep_announced hwf h, performEvent, driveLine, hl] at hstep

theorem runSteps_irq_irq {s : State} (hwf : s.cfg.wf = true) {l : Nat} (hl : l < s.cfg.nIrq) {a b : Bool}
    {rest : List Event} (h : s.inputs = .irq l a :: .irq l b :: rest) :
    runSteps 2 s = .next (setLine l b (setLine l a { s with inputs := rest, rdata := none })) := by
  have hsecond := step_irq (s := setLine l a { s with inputs := .irq l b :: rest, rdata := none }) hwf hl rfl
  exact (runSteps_succ (step_irq hwf hl h)).trans (runSteps_succ (n := 0) hsecond)

end Sys2Proof.Machine

namespace Sys2Proof.Proofs

/-- Settles O42: a level change drives its own line only, and GEN passes the level driven last. -/
theorem gateDeliversOnlyTheLevelsHeldNow : Obligations.GateDeliversOnlyTheLevelsHeldNow := by
  refine ⟨fun s i => irqOut_of_lt, fun s t l i b hwf hhead hstep => ?change, fun s l b rest hs hl hgie h => ?sequence⟩
  case change =>
    obtain ⟨rest, h⟩ := List.head?_eq_some_iff.1 hhead
    obtain ⟨hl, rfl⟩ := step_irq_next hwf h hstep
    have hout := irqOut_setLine (s := { s with inputs := rest, rdata := none }) hwf hl b
    exact ⟨(hout l).trans (if_pos rfl), fun hi => (hout i).trans (if_neg hi)⟩
  case sequence =>
    have hdrive := runSteps_irq_irq hs.1 hl h
    have hgen := step_gen (rest := rest) (s := setLine l b (setLine l true
      { s with inputs := commandWrite s.cfg (encode .gen) :: rest, rdata := none })) hs rfl
    have hrun := (runSteps_add hdrive).trans (runSteps_succ (n := 0) hgen)
    have hout := irqOut_setLine (s := { setLine l true s with gie := true }) hs.1 hl b l
    exact ⟨_, _, hdrive, irqOut_of_gie (by simpa using hgie) l, hrun, hout.trans ((if_pos rfl).trans (Bool.and_true b))⟩

/-- Settles O43: SAVED is 0 after the inner GSAVE, and only a GSAVE could raise it again. -/
theorem nestedWindowsLoseTheOuterEnable : Obligations.NestedWindowsLoseTheOuterEnable := by
  refine ⟨fun s t hgie h => ?inner, fun s t h hsaved hg => ?step, fun s n rest hs h => ?run⟩
  case inner =>
    obtain rfl := exec_gsave_iff.1 h
    exact ⟨hgie, rfl⟩
  case step =>
    refine ⟨(step_saved h hg).elim (·.trans hsaved) And.right, fun hp => ?_⟩
    obtain rfl := exec_grest_iff.1 (exec_of_performs h hp)
    exact (afterEvent_saved s).trans hsaved
  case run =>
    rw [runSteps_succ (step_gsave hs h)]
    exact runSteps_gsave_grest hs rfl rfl

/-- Settles O30: both commands' effects are their definitions, and a GREST reads nothing but SAVED. -/
theorem gsaveAndGrestSaveAndRestoreTheEnable : Obligations.GsaveAndGrestSaveAndRestoreTheEnable := by
  refine ⟨by decide, by decide, fun _ => rfl, fun s t i h => ?suppress, fun _ => rfl, fun s t u h h' => ?twice,
    fun s t u v h hsaved h' => ?undo, fun s t u v w hgdis hgsave hsaved hgrest => ?afterGdis, fun t h => ?atReset⟩
  case suppress =>
    obtain rfl := exec_gsave_iff.1 h
    exact irqOut_of_gie rfl i
  case twice =>
    obtain rfl := exec_grest_iff.1 h
    obtain rfl := exec_grest_iff.1 h'
    rfl
  case undo =>
    obtain rfl := exec_gsave_iff.1 h
    obtain rfl := exec_grest_iff.1 h'
    exact hsaved
  case afterGdis =>
    obtain rfl := exec_gdis_iff.1 hgdis
    obtain rfl := exec_gsave_iff.1 hgsave
    obtain rfl := exec_grest_iff.1 hgrest
    exact hsaved
  case atReset =>
    obtain rfl := exec_grest_iff.1 h
    rfl

/-- Settles O31: both commands' effects are their definitions, and the output follows GIE. -/
theorem genAndGdisSwitchDelivery : Obligations.GenAndGdisSwitchDelivery := by
  refine ⟨by decide, by decide, fun _ => rfl, fun _ => rfl, fun s t i hi h => ?gen, fun s t i h => ?gdis⟩
  case gen =>
    obtain rfl := exec_gen_iff.1 h
    exact (irqOut_of_lt (s := { s with gie := true }) hi).trans (Bool.and_true _)
  case gdis =>
    obtain rfl := exec_gdis_iff.1 h
    exact irqOut_of_gie rfl i

/-- Settles O44: the gate commands write GIE and SAVED only, the counter's events neither, and the output reads no flag. -/
theorem gateAndCounterAreIndependent : Obligations.GateAndCounterAreIndependent := by
  refine ⟨fun s t h => ?gate, fun s t h => ?counter, fun _ _ _ => rfl⟩
  case gate =>
    rw [exec_gsave_iff, exec_grest_iff, exec_gen_iff, exec_gdis_iff] at h
    obtain rfl | rfl | rfl | rfl := h <;> exact ⟨rfl, rfl, rfl, rfl, rfl, rfl⟩
  case counter =>
    obtain h | ⟨cs, h⟩ | h | h := h
    · obtain rfl := Host.Outcome.next.inj ((exec_cfg s).symm.trans h)
      exact ⟨rfl, rfl⟩
    · obtain rfl := exec_start_iff.1 h
      exact ⟨rfl, rfl⟩
    · obtain rfl := exec_stop_iff.1 h
      exact ⟨rfl, rfl⟩
    · exact clockEdge_sameGate h

end Sys2Proof.Proofs
end

section
/-! SUPPORT. Proofs about the scaling unit: the saturating multiply (43_scaler.md R103), and what TOCYC and TOUS write of it
(R104, R106, R110). -/

open Sys2Proof Sys2Proof.Machine

namespace Sys2Proof.Machine

/-! ### The saturating multiply (43_scaler.md R103) -/

theorem satmul32_value_toNat (a b : Nat) : (satmul32 a b).1.toNat = min (a * b) (2 ^ 32 - 1) := by
  obtain ⟨hover, h⟩ | ⟨hfits, h⟩ := satmul32_cases a b
  · rw [h, Nat.min_eq_right hover.le]
    rfl
  · rw [h, Nat.min_eq_left hfits]
    exact Nat.mod_eq_of_lt (by omega)

theorem satmul32_saturated_iff (a b : Nat) : (satmul32 a b).2 = true ↔ 2 ^ 32 - 1 < a * b := by
  obtain ⟨hover, h⟩ | ⟨hfits, h⟩ := satmul32_cases a b
  · exact iff_of_true (congrArg Prod.snd h) hover
  · simp only [h, Bool.false_eq_true, hfits.not_gt]

theorem satmul32_of_le {a b : Nat} (hfits : a * b ≤ 2 ^ 32 - 1) : satmul32 a b = (BitVec.ofNat 32 (a * b), false) :=
  if_neg hfits.not_gt

/-! ### Conversions, and the commands inverted (43_scaler.md R104, R106, R110) -/

/-- The result registers of two conversions of the same operands agree, whatever else the two states hold. -/
theorem convert_sameResult (a b : Nat) (s s' : State) :
    (convert a b s).res = (convert a b s').res ∧ (convert a b s).sat = (convert a b s').sat := ⟨rfl, rfl⟩

section

variable {s t : State}

theorem exec_tocyc_iff : exec .tocyc s = .next t ↔ convert s.ticks.toNat (s.cfg.factor s.cs.toNat) s = t :=
  iff_of_eq (Host.Outcome.next.injEq ..)

theorem exec_tous_iff : exec .tous s = .next t ↔ convert s.ticks.toNat s.mul.toNat s = t :=
  iff_of_eq (Host.Outcome.next.injEq ..)

end

end Sys2Proof.Machine

namespace Sys2Proof.Proofs

/-- Settles O25: the multiply clamps the exact product, and both commands are conversions by it. -/
theorem conversionsClampTheExactProduct : Obligations.ConversionsClampTheExactProduct :=
  ⟨fun a b => ⟨satmul32_value_toNat a b, satmul32_saturated_iff a b⟩,
    fun _ => exec_tocyc_iff.2 rfl, fun _ => exec_tous_iff.2 rfl⟩

/-- Settles O27: TOUS is the conversion of TICKS by MUL, and a product that fits is not clamped. -/
theorem tousMultipliesByMul : Obligations.TousMultipliesByMul := by
  refine ⟨by decide, fun s => ?product, fun s t hmul h => ?zero, fun s t hticks hmul h => ?inRange, by decide⟩
  case product =>
    exact ⟨_, exec_tous_iff.2 rfl, rfl, satmul32_value_toNat _ _, satmul32_saturated_iff _ _⟩
  case zero =>
    obtain rfl := exec_tous_iff.1 h
    simp [hmul, satmul32_of_le]
  case inRange =>
    obtain rfl := exec_tous_iff.1 h
    have hfits : s.ticks.toNat * s.mul.toNat ≤ 65535 * 65537 := Nat.mul_le_mul hticks hmul
    exact congrArg Prod.snd (satmul32_of_le hfits)

/-- Settles O29: both commands are conversions, which write RES and SAT only and read their operands only. -/
theorem scalerCommandsArePureFunctionsOfTheirOperands : Obligations.ScalerCommandsArePureFunctionsOfTheirOperands := by
  refine ⟨fun s t h => ?frame, fun s s' t t' hticks hfactor h h' => ?tocyc, fun s s' t t' hticks hmul h h' => ?tous⟩
  case frame =>
    rw [exec_tocyc_iff, exec_tous_iff] at h
    obtain rfl | rfl := h <;> rfl
  case tocyc =>
    obtain rfl := exec_tocyc_iff.1 h
    obtain rfl := exec_tocyc_iff.1 h'
    rw [hticks, hfactor]
    exact convert_sameResult _ _ s s'
  case tous =>
    obtain rfl := exec_tous_iff.1 h
    obtain rfl := exec_tous_iff.1 h'
    rw [hticks, hmul]
    exact convert_sameResult _ _ s s'

end Sys2Proof.Proofs
end

section
/-! SUPPORT. Proofs about control: NOP and CLRERR (44_control.md R111, R112), an illegal word (R113), and the completion of
every command in its one step (R116). -/

open Sys2Proof Sys2Proof.Machine

namespace Sys2Proof.Machine

/-! ### Performing a word written to CMD (30_encoding.md R63) -/

theorem perform_encode {i : Instr} {s : State} (hi : i.wf s.cfg.k = true) : perform (encode i) s = exec i s :=
  perform_of_decode_ok (decode_encode hi)

/-- A ready block's step on an announced write of an illegal word. -/
theorem step_illegal {s : State} (hs : s.Ready) {v : Word} {e : Illegal} {rest : List Event}
    (h : s.inputs = commandWrite s.cfg v :: rest) (hd : decode s.cfg.k v = .error e) :
    step s = .next { s with inputs := rest, rdata := none, ill := true } :=
  (step_write hs (r := .cmd) h).trans (perform_of_decode_error hd)

/-! ### NOP and CLRERR (44_control.md R111, R112) -/

theorem exec_nop (s : State) : exec .nop s = .next s := rfl

theorem exec_clrerr (s : State) : exec .clrerr s = .next { s with ill := false } := rfl

/-! ### A command's one step, and what stays for the next (44_control.md R116) -/

/-- No command stops. -/
theorem exec_total (i : Instr) (s : State) : ∃ t, exec i s = .next t := by
  cases i <;> exact ⟨_, rfl⟩

/-- A command leaves the parameters and `rst` alone, so the block can take the next access. -/
theorem exec_ready {i : Instr} {s t : State} (h : exec i s = .next t) (hs : s.Ready) : t.Ready := by
  obtain ⟨hcfg, hrst, -⟩ := exec_samePorts h
  unfold State.Ready
  rwa [hcfg, hrst]

/-- A ready block's step on a command is its `exec`, with the input used up and the read port idle. -/
theorem step_command_next {s t : State} (hs : s.Ready) {i : Instr} (hi : i.wf s.cfg.k = true) {rest : List Event}
    (h : s.inputs = commandWrite s.cfg (encode i) :: rest) (ht : exec i s = .next t) :
    step s = .next { t with inputs := rest, rdata := none } := by
  obtain ⟨-, -, -, -, -, hdraws⟩ := exec_samePorts ht
  rw [step_command hs hi h, exec_withPorts ht rest none s.draws, hdraws]

/-- A read finds the register's value whatever the read port held. -/
theorem step_read_ports {s : State} (hs : s.Ready) (r : Reg) (d : Option Word) (rest : List Event) :
    step { s with rdata := d, inputs := .host (.read (s.cfg.base + regOffset r) 4) :: rest } =
      .next { s with inputs := rest, rdata := some (readReg s r) } := by
  rw [← readReg_ports s s.irqIn d (_ :: rest) r]
  exact step_read (s := { s with rdata := d, inputs := _ :: rest }) hs rfl

end Sys2Proof.Machine

namespace Sys2Proof.Proofs

/-- Settles O8: a write to CMD performs the word, and performing an illegal one only sets ILL. -/
theorem stepOnIllegalWordOnlySetsIll : Obligations.StepOnIllegalWordOnlySetsIll :=
  fun _ _ _ _ hs h => step_illegal hs h

/-- Settles O9: the first step is the command's `exec`, which leaves the block ready, and the second reads the register in
the state that `exec` gives, since no register shows the ports. -/
theorem commandCompletesInOneStepAndIsSeenByTheNextRead : Obligations.CommandCompletesInOneStepAndIsSeenByTheNextRead := by
  intro s i r rest hs hi h
  obtain ⟨t, ht⟩ := exec_total i s
  obtain ⟨hcfg, -⟩ := exec_samePorts ht
  refine ⟨t, ht, ?_⟩
  rw [runSteps_succ (step_command_next hs hi h ht), ← hcfg]
  exact runSteps_succ (step_read_ports (exec_ready ht hs) r none rest)

/-- Settles O32: the two words are the commands' own, well formed for every K, and both effects are their definitions. -/
theorem nopAndClrerrDoNoMore : Obligations.NopAndClrerrDoNoMore :=
  ⟨by decide, by decide, fun s => ⟨exec_nop s, perform_encode (i := .nop) rfl⟩,
    fun s => ⟨exec_clrerr s, perform_encode (i := .clrerr) rfl⟩⟩

end Sys2Proof.Proofs
end

section
/-! SUPPORT. Proofs about the encoding: the round trip between commands and their words (30_encoding.md R62 to R68), and the
number of legal words (R72). -/

open Sys2Proof Sys2Proof.Machine

namespace Sys2Proof

/-! ### The legal words of `k` codes (30_encoding.md R72) -/

theorem decode_ok_iff {k : Nat} {v : Word} {i : Instr} : decode k v = .ok i ↔ encode i = v ∧ i.wf k = true := by
  constructor
  · intro h
    obtain ⟨-, -, -, hi⟩ := decode_ok h
    exact ⟨encode_of_decode h, hi⟩
  · rintro ⟨rfl, hi⟩
    exact decode_encode hi

/-- START with each of the eight CS values. -/
def everyStart : List Instr := (List.finRange 8).map fun c => .start (BitVec.ofFin c)

/-- Every command. -/
def everyInstr : List Instr :=
  .nop :: .cfg :: .stop :: .select :: .tocyc :: .tous :: .gsave :: .grest :: .gen :: .gdis :: .clrerr :: everyStart

theorem mem_everyInstr (i : Instr) : i ∈ everyInstr := by
  cases i <;> simp [everyInstr, everyStart]

/-- The words of the commands that are well formed for `k` codes. -/
def legalWords (k : Nat) : List Word := (everyInstr.filter (Instr.wf k)).map encode

theorem mem_legalWords {k : Nat} {v : Word} : v ∈ legalWords k ↔ ∃ i, decode k v = .ok i := by
  simp [legalWords, decode_ok_iff, mem_everyInstr, and_comm]

theorem legalWords_nodup (k : Nat) : (legalWords k).Nodup :=
  have heach : everyInstr.Nodup := by decide
  (heach.filter _).map fun _ _ => encode_injective

theorem legalWords_length {k : Nat} (hk : k ≤ 7) : (legalWords k).length = 11 + (k + 1) := by
  interval_cases k <;> rfl

end Sys2Proof

namespace Sys2Proof.Proofs

/-- Settles O2: the decoder reads back the three fields that the encoder writes. -/
theorem decodeOfEncodeIsTheCommand : Obligations.DecodeOfEncodeIsTheCommand :=
  fun _ _ h => decode_encode h

/-- Settles O3: a word that decodes has the fields of its command, which is in range, and a word is its fields. -/
theorem encodeOfDecodeIsTheWord : Obligations.EncodeOfDecodeIsTheWord :=
  fun _ _ _ => decode_ok_iff.1

/-- Settles O5: the legal words are those of the well-formed commands, of which there are 11 and a START for each code
`0..k`. -/
theorem legalWordsNumberElevenPlusCodes : Obligations.LegalWordsNumberElevenPlusCodes :=
  fun k hk => ⟨legalWords k, legalWords_nodup k, legalWords_length hk, fun _ => mem_legalWords⟩

/-- Settles O1: each listed word is the encoding of its command, well formed for five codes, and the last four words have an
OP that no command has. -/
theorem listedWordsDecodeToTheirCommands : Obligations.ListedWordsDecodeToTheirCommands := by
  unfold Obligations.ListedWordsDecodeToTheirCommands
  simp only [decode_ok_iff, decode_error_iff]
  constructor
  · decide
  · intro v hv
    simp only [List.mem_cons, List.not_mem_nil, or_false] at hv
    obtain rfl | rfl | rfl | rfl := hv <;> exact .inr (.inl (by decide))

end Sys2Proof.Proofs
end

section
/-! SUPPORT. Proofs about the step: what it always does with the announced inputs (00_scope.md R16), when it completes
(60_exceptions.md R117, R131), and each reason for which it stops (20_memory.md R46, R59 to R61). -/

open Sys2Proof Sys2Proof.Machine

namespace Sys2Proof.Machine

/-! ### Host accesses (20_memory.md R42, R46, R59, R60, R61) -/

theorem inWindow_iff (c : Config) (addr : Nat) : inWindow c addr = true ↔ c.base ≤ addr ∧ addr < c.base + 32 := by
  simp [inWindow]

/-- An access the block never accepts, because of its width or its alignment (20_memory.md R46). -/
def Narrow (a : Access) : Prop :=
  ∃ addr n, (n ≠ 4 ∨ addr % 4 ≠ 0) ∧ (a = .read addr n ∨ ∃ v, a = .write addr n v)

section

variable {s : State} {a : Access}

theorem hostAccess_outside (hw : inWindow s.cfg (accessAddr a) = false) :
    hostAccess a s = .fault (.outsideWindow (accessAddr a)) := if_pos hw

theorem hostAccess_of_rst (hw : inWindow s.cfg (accessAddr a) = true) (hr : s.rst = true) :
    hostAccess a s = .refused .accessDuringReset := by
  simp [hostAccess, hw, hr]

theorem hostAccess_fetch {addr : Nat} (hw : inWindow s.cfg addr = true) (hr : s.rst = false) :
    hostAccess (.fetch addr) s = .refused .fetchFromDevice := by
  simp [hostAccess, accessAddr, hw, hr]

theorem hostAccess_narrow (hw : inWindow s.cfg (accessAddr a) = true) (hr : s.rst = false) (hm : s.cfg.mapping = .device)
    (ha : Narrow a) : hostAccess a s = .refused .narrowOrMisalignedAccess := by
  obtain ⟨addr, n, hn, rfl | ⟨v, rfl⟩⟩ := ha <;> simp [hostAccess, hw, hr, onRegister, hm, hn]

theorem perform_total (v : Word) (s : State) : ∃ t, perform v s = .next t := by
  obtain ⟨i, hi⟩ | ⟨e, he⟩ := decode_total s.cfg.k v
  · rw [perform_of_decode_ok hi]
    exact exec_total i s
  · exact ⟨_, perform_of_decode_error he⟩

theorem busWrite_total (r : Reg) (v : Word) (s : State) : ∃ t, busWrite r v s = .next t := by
  cases r
  case cmd => exact perform_total v s
  all_goals exact ⟨_, rfl⟩

/-- `onRegister_cases` for an operation that always gives a next state. -/
theorem onRegister_stops (hwf : s.cfg.wf = true) {addr : Nat} (hw : inWindow s.cfg addr = true) (n : Nat)
    {f : Reg → State → Host.Outcome State Fault Refusal} (hf : ∀ r, ∃ t, f r s = .next t) :
    (s.cfg.mapping ≠ .device ∧ onRegister addr n s f = .refused .notDeviceMapping) ∨
    ((n ≠ 4 ∨ addr % 4 ≠ 0) ∧ onRegister addr n s f = .refused .narrowOrMisalignedAccess) ∨
    ∃ t, onRegister addr n s f = .next t := by
  obtain h | ⟨_, h⟩ | ⟨_, _, r, _, h⟩ := onRegister_cases hwf hw n f
  · exact .inl h
  · exact .inr (.inl h)
  · exact .inr (.inr (h ▸ hf r))

/-- Everything a host access can do. -/
theorem hostAccess_cases (hwf : s.cfg.wf = true) (a : Access) :
    (inWindow s.cfg (accessAddr a) = false ∧ hostAccess a s = .fault (.outsideWindow (accessAddr a))) ∨
    (s.rst = true ∧ hostAccess a s = .refused .accessDuringReset) ∨
    ((∃ addr, a = .fetch addr) ∧ hostAccess a s = .refused .fetchFromDevice) ∨
    (s.cfg.mapping ≠ .device ∧ hostAccess a s = .refused .notDeviceMapping) ∨
    (Narrow a ∧ hostAccess a s = .refused .narrowOrMisalignedAccess) ∨
    ∃ t, hostAccess a s = .next t := by
  cases hw : inWindow s.cfg (accessAddr a) with
  | false => exact .inl ⟨rfl, hostAccess_outside hw⟩
  | true =>
    cases hr : s.rst with
    | true => exact .inr (.inl ⟨rfl, hostAccess_of_rst hw hr⟩)
    | false =>
      refine .inr (.inr ?_)
      cases a with
      | fetch addr => exact .inl ⟨⟨addr, rfl⟩, hostAccess_fetch hw hr⟩
      | read addr n =>
        have ha : hostAccess (.read addr n) s = onRegister addr n s busRead := by simp [hostAccess, hw, hr]
        rw [ha]
        obtain h | ⟨hn, h⟩ | h := onRegister_stops hwf hw n (f := busRead) fun r => ⟨_, rfl⟩
        · exact .inr (.inl h)
        · exact .inr (.inr (.inl ⟨⟨addr, n, hn, .inl rfl⟩, h⟩))
        · exact .inr (.inr (.inr h))
      | write addr n v =>
        have ha : hostAccess (.write addr n v) s = onRegister addr n s fun r => busWrite r v := by simp [hostAccess, hw, hr]
        rw [ha]
        obtain h | ⟨hn, h⟩ | h := onRegister_stops hwf hw n (f := fun r => busWrite r v) fun r => busWrite_total r v s
        · exact .inr (.inl h)
        · exact .inr (.inr (.inl ⟨⟨addr, n, hn, .inr ⟨v, rfl⟩⟩, h⟩))
        · exact .inr (.inr (.inr h))

end

/-! ### The step, by the parameters and by the next agent -/

section

variable {s : State}

theorem step_of_not_wf (hwf : s.cfg.wf = false) : step s = .refused .unsupportedParameters := by
  simp [step, agentStep, hwf]

theorem step_of_wf (hwf : s.cfg.wf = true) : step s = performEvent (nextEvent s) (afterEvent s) := by
  simp [step, agentStep, hwf]

/-- An agent step other than the host's stops only for a line that does not exist. -/
theorem performEvent_cases (e : Event) (s : State) :
    (∃ a, e = .host a ∧ performEvent e s = hostAccess a s) ∨
    (∃ l b, e = .irq l b ∧ s.cfg.nIrq ≤ l ∧ performEvent e s = .refused (.noSuchLine l)) ∨
    ∃ t, performEvent e s = .next t := by
  cases e with
  | host a => exact .inl ⟨a, rfl, rfl⟩
  | clock => exact .inr (.inr ⟨_, rfl⟩)
  | rst b => exact .inr (.inr ⟨_, rfl⟩)
  | irq l b =>
    by_cases hl : l < s.cfg.nIrq
    · exact .inr (.inr ⟨_, if_pos hl⟩)
    · exact .inr (.inl ⟨l, b, rfl, Nat.le_of_not_lt hl, if_neg hl⟩)

theorem step_fault {f : Fault} (h : step s = .fault f) :
    ∃ a, nextEvent s = .host a ∧ inWindow s.cfg (accessAddr a) = false := by
  cases hwf : s.cfg.wf with
  | false => simp [step_of_not_wf hwf] at h
  | true =>
    rw [step_of_wf hwf] at h
    obtain ⟨a, he, ha⟩ | ⟨_, _, _, _, ha⟩ | ⟨_, ha⟩ := performEvent_cases (nextEvent s) (afterEvent s) <;> rw [ha] at h
    · obtain ⟨hw, _⟩ | ⟨_, ha⟩ | ⟨_, ha⟩ | ⟨_, ha⟩ | ⟨_, ha⟩ | ⟨_, ha⟩ :=
        hostAccess_cases (s := afterEvent s) (by simpa using hwf) a
      · exact ⟨a, he, by simpa using hw⟩
      all_goals simp [ha] at h
    all_goals cases h

theorem step_refused {r : Refusal} (h : step s = .refused r) :
    (r = .unsupportedParameters ∧ s.cfg.wf = false) ∨
    (r = .accessDuringReset ∧ s.rst = true ∧ ∃ a, nextEvent s = .host a) ∨
    (r = .fetchFromDevice ∧ ∃ addr, nextEvent s = .host (.fetch addr)) ∨
    (r = .notDeviceMapping ∧ s.cfg.mapping ≠ .device ∧ ∃ a, nextEvent s = .host a) ∨
    (r = .narrowOrMisalignedAccess ∧ ∃ a, Narrow a ∧ nextEvent s = .host a) ∨
    ∃ l b, r = .noSuchLine l ∧ nextEvent s = .irq l b ∧ s.cfg.nIrq ≤ l := by
  cases hwf : s.cfg.wf with
  | false =>
    obtain rfl := Host.Outcome.refused.inj ((step_of_not_wf hwf).symm.trans h)
    exact .inl ⟨rfl, rfl⟩
  | true =>
    rw [step_of_wf hwf] at h
    obtain ⟨a, he, ha⟩ | ⟨l, b, he, hl, ha⟩ | ⟨t, ha⟩ := performEvent_cases (nextEvent s) (afterEvent s) <;> rw [ha] at h
    · obtain ⟨_, ha⟩ | ⟨hr, ha⟩ | ⟨⟨addr, hf⟩, ha⟩ | ⟨hm, ha⟩ | ⟨hn, ha⟩ | ⟨t, ha⟩ :=
        hostAccess_cases (s := afterEvent s) (by simpa using hwf) a <;>
        rw [ha] at h <;> cases h
      · exact .inr (.inl ⟨rfl, by simpa using hr, a, he⟩)
      · exact .inr (.inr (.inl ⟨rfl, addr, hf ▸ he⟩))
      · exact .inr (.inr (.inr (.inl ⟨rfl, by simpa using hm, a, he⟩)))
      · exact .inr (.inr (.inr (.inr (.inl ⟨rfl, a, hn, he⟩))))
    · cases h
      exact .inr (.inr (.inr (.inr (.inr ⟨l, b, rfl, he, by simpa using hl⟩))))
    · cases h

end

/-! ### What every completed step does with the inputs (log 3) -/

theorem step_plumbing {s t : State} (h : step s = .next t) :
    t.cfg = s.cfg ∧ t.inputs = (afterEvent s).inputs ∧ t.draws = (afterEvent s).draws := by
  obtain ⟨-, hc⟩ := step_next h
  cases hc with
  | command i _ _ ht =>
    obtain ⟨hcfg, -, -, -, hinputs, hdraws⟩ := exec_samePorts ht
    exact ⟨hcfg.trans (afterEvent_cfg s), hinputs, hdraws⟩
  | read _ _ _ ht | offence _ _ ht | estimate _ _ _ ht | multiplier _ _ _ ht | clockHeld _ _ ht | clock _ _ ht
  | line _ _ _ _ ht | assert _ ht | release _ ht => simp [ht]

end Sys2Proof.Machine

namespace Sys2Proof.Proofs

/-- Settles O10: whatever a step does, it does at `afterEvent`, and it writes no parameter and no input field. -/
theorem stepTakesOneInputAndKeepsParameters : Obligations.StepTakesOneInputAndKeepsParameters := by
  intro s t h
  obtain ⟨hcfg, hinputs, hdraws⟩ := step_plumbing h
  exact ⟨hcfg, hinputs.trans (afterEvent_inputs s), hdraws.trans (afterEvent_draws s)⟩

/-- Settles O11: each enabled agent step is one of the announced steps, and a write completes whatever its word. -/
theorem everyEnabledAgentStepCompletes : Obligations.EveryEnabledAgentStepCompletes := by
  intro s e rest hwf hm h he
  obtain ⟨hr, r, rfl | ⟨v, rfl⟩⟩ | rfl | ⟨l, b, hl, rfl⟩ | ⟨b, rfl⟩ := he
  · exact ⟨_, step_read ⟨hwf, hm, hr⟩ h⟩
  · rw [step_write ⟨hwf, hm, hr⟩ h]
    exact busWrite_total r v _
  · exact ⟨_, agentStep_announced hwf h⟩
  · exact ⟨_, step_irq hwf hl h⟩
  · exact ⟨_, step_rst hwf h⟩

/-- Settles O12: the stops of a step are those of the parameters, of a host access, and of a missing line. -/
theorem stepStopsOnlyForMeaninglessHostActions : Obligations.StepStopsOnlyForMeaninglessHostActions := by
  refine ⟨fun s f => step_fault, fun s r h => ?_, exec_total⟩
  have hnarrow : (∃ a, Narrow a ∧ nextEvent s = .host a) → ∃ addr n, (n ≠ 4 ∨ addr % 4 ≠ 0) ∧
      (nextEvent s = .host (.read addr n) ∨ ∃ v, nextEvent s = .host (.write addr n v)) := by
    rintro ⟨a, ⟨addr, n, hn, rfl | ⟨v, rfl⟩⟩, he⟩
    · exact ⟨addr, n, hn, .inl he⟩
    · exact ⟨addr, n, hn, .inr ⟨v, he⟩⟩
  exact (step_refused h).imp_right (.imp_right (.imp_right (.imp_right (.imp_left (And.imp_right hnarrow)))))

/-- Settles O7: a write to CMD performs its word, and a legal word is performed by its command. -/
theorem stepRunsTheCommandWrittenToCmd : Obligations.StepRunsTheCommandWrittenToCmd :=
  fun _ _ _ _ hs h hd => (step_write hs (r := .cmd) h).trans (perform_of_decode_ok hd)

/-- Settles O17: the two offsets are those of EST and MUL, whose writes store the word. -/
theorem writeToEstOrMulStoresEveryWord : Obligations.WriteToEstOrMulStoresEveryWord :=
  fun _ _ _ hs => ⟨step_write hs (r := .est), step_write hs (r := .mul)⟩

/-- Settles O18: each clause is the host access's refusal of that kind. -/
theorem meaninglessWindowAccessesAreRefused : Obligations.MeaninglessWindowAccessesAreRefused := by
  intro s a rest hwf hm h hlo hhi
  have hw : inWindow s.cfg (accessAddr a) = true := (inWindow_iff _ _).2 ⟨hlo, hhi⟩
  rw [agentStep_announced hwf h]
  refine ⟨fun hr => hostAccess_of_rst hw hr, fun hr hf => ?_, fun hr hn => hostAccess_narrow hw hr hm hn⟩
  obtain ⟨addr, rfl⟩ := hf
  exact hostAccess_fetch hw hr

end Sys2Proof.Proofs
end

section
/-! SUPPORT. Proofs about what the window shows: the bits of STATUS (10_state.md R34), the byte view (20_memory.md R47), and
the bytes each command leaves alone. -/

open Sys2Proof Sys2Proof.Machine

namespace Sys2Proof.Machine

/-! ### STATUS (10_state.md R34) -/

theorem toNat_append_eq {m n : Nat} (x : BitVec m) (y : BitVec n) : (x ++ y).toNat = 2 ^ n * x.toNat + y.toNat := by
  rw [BitVec.toNat_append, ← Nat.shiftLeft_add_eq_or_of_lt y.isLt, Nat.shiftLeft_eq, Nat.mul_comm]

theorem statusWord_toNat (s : State) :
    (statusWord s).toNat = s.run.toNat + 2 * s.ovf.toNat + 4 * s.sat.toNat + 8 * s.ill.toNat + 16 * s.gie.toNat +
      32 * s.saved.toNat + 256 * s.cs.toNat := by
  rw [statusWord, BitVec.toNat_setWidth_of_le (by decide)]
  simp only [toNat_append_eq, BitVec.toNat_ofBool, BitVec.toNat_zero]
  omega

/-- Bits [5:0] are the flags. -/
theorem statusWord_flags (s : State) :
    (statusWord s).getLsbD 0 = s.run ∧ (statusWord s).getLsbD 1 = s.ovf ∧ (statusWord s).getLsbD 2 = s.sat ∧
      (statusWord s).getLsbD 3 = s.ill ∧ (statusWord s).getLsbD 4 = s.gie ∧ (statusWord s).getLsbD 5 = s.saved := by
  simp only [statusWord, BitVec.getLsbD_setWidth, BitVec.getLsbD_append, BitVec.getLsbD_ofBool]
  simp

/-- The flags fill the six bits below bit 6, so the fields above them are those of `256 * CS`. -/
theorem statusWord_fields (s : State) :
    (statusWord s).extractLsb' 6 2 = 0 ∧ (statusWord s).extractLsb' 8 3 = s.cs ∧
      (statusWord s).extractLsb' 11 21 = 0 := by
  have hcs := s.cs.isLt
  have hrun := s.run.toNat_le
  have hovf := s.ovf.toNat_le
  have hsat := s.sat.toNat_le
  have hill := s.ill.toNat_le
  have hgie := s.gie.toNat_le
  have hsaved := s.saved.toNat_le
  simp only [← BitVec.toNat_inj, BitVec.extractLsb'_toNat, statusWord_toNat, Nat.shiftRight_eq_div_pow,
    BitVec.ofNat_eq_ofNat, BitVec.toNat_zero]
  refine ⟨?_, ?_, ?_⟩ <;> omega

/-! ### The byte view (20_memory.md R47) -/

theorem extractByte_eq (w : Word) (j : Nat) : w.extractLsb' (8 * j) 8 = BitVec.ofNat 8 (w.toNat / 2 ^ (8 * j)) := by
  apply BitVec.eq_of_toNat_eq
  simp [Nat.shiftRight_eq_div_pow]

theorem readByte_reg (s : State) (r : Reg) {j : Nat} (hj : j < 4) :
    readByte s (s.cfg.base + regOffset r + j) = some ((readReg s r).extractLsb' (8 * j) 8) := by
  have hoff := regOffset_aligned r
  have hlt := regOffset_lt r
  have hw : inWindow s.cfg (s.cfg.base + regOffset r + j) = true := by
    simp [inWindow]
    omega
  have hword : (s.cfg.base + regOffset r + j - s.cfg.base) / 4 = regOffset r / 4 := by omega
  have hbyte : (s.cfg.base + regOffset r + j - s.cfg.base) % 4 = j := by omega
  simp [readByte, hw, hword, hbyte]

theorem readByte_outside {s : State} {a : Nat} (h : a < s.cfg.base ∨ s.cfg.base + 32 ≤ a) : readByte s a = none := by
  have hw : ¬inWindow s.cfg a = true := by
    simp [inWindow]
    omega
  exact if_neg hw

/-! ### What each command can show -/

/-- A command changes the read value of the registers of `changedRegs` only. -/
theorem exec_readReg {i : Instr} {s t : State} (h : exec i s = .next t) {r : Reg} (hr : r ∉ changedRegs i) :
    readReg t r = readReg s r := by
  cases i <;> obtain rfl := Host.Outcome.next.inj h <;> cases r <;>
    simp_all [changedRegs, readReg, statusWord]

end Sys2Proof.Machine

namespace Sys2Proof.Proofs

/-- Settles O14: STATUS is the concatenation of its fields, from CS at bit 8 down to RUN at bit 0. -/
theorem statusHoldsTheFlagsAndTheCode : Obligations.StatusHoldsTheFlagsAndTheCode := by
  refine ⟨statusWord_toNat, fun s => ?_, by decide⟩
  obtain ⟨hrun, hovf, hsat, hill, hgie, hsaved⟩ := statusWord_flags s
  exact ⟨hrun, hovf, hsat, hill, hgie, hsaved, statusWord_fields s⟩

/-- Settles O19: the byte at `off + j` is found through the word offset `off / 4` and the byte number `j`. -/
theorem windowBytesAreLittleEndian : Obligations.WindowBytesAreLittleEndian :=
  fun s => ⟨fun r _ hj => (readByte_reg s r hj).trans (congrArg some (extractByte_eq _ _)), fun _ => readByte_outside⟩

/-- Settles O20: a byte outside the changed registers belongs to a register whose read value stays. -/
theorem commandsKeepTheOtherWindowBytes : Obligations.CommandsKeepTheOtherWindowBytes := by
  intro i s t a h hout
  obtain ⟨hcfg, -⟩ := exec_samePorts h
  refine readByte_congr hcfg fun r hlo hhi => exec_readReg h fun hr => ?_
  have := hout r hr
  omega

end Sys2Proof.Proofs
end

section
/-! SUPPORT. Proofs about the selector and the scaler: SELECT's code, its range of estimates and its order
(41_selector.md R87, R89), and TOCYC in range (43_scaler.md R104, R105). -/

open Sys2Proof Sys2Proof.Machine

namespace Sys2Proof.Config

/-! ### The chosen code and its range (41_selector.md R89) -/

/-- A code below K is chosen only if it has the capacity. -/
theorem selectCode_fits_of_lt {c : Config} {e : Nat} (h : c.selectCode e < c.k) : e ≤ c.cap * c.factor (c.selectCode e) := by
  unfold selectCode at *
  split at h
  · rename_i i hi
    obtain ⟨hl, hp, _⟩ := List.findIdx?_eq_some_iff_getElem.1 hi
    rw [factor_of_getElem (d := c.divSet[i]) (by simp [hl])]
    simpa using hp
  · exact absurd h (Nat.lt_irrefl _)

theorem cap_mul_factor_le {c : Config} (hwf : c.wf = true) {m n : Nat} (h1 : 1 ≤ m) (h2 : m ≤ n) (h3 : n ≤ c.k) :
    c.cap * c.factor m ≤ c.cap * c.factor n := Nat.mul_le_mul_left _ (factor_le hwf h1 h2 h3)

/-- The chosen code is at most `n` exactly if `n` has the capacity: the choice is the first code that has. -/
theorem selectCode_le_iff {c : Config} (hwf : c.wf = true) {e n : Nat} (h1 : 1 ≤ n) (hn : n < c.k) :
    c.selectCode e ≤ n ↔ e ≤ c.cap * c.factor n := by
  constructor
  · intro h
    exact (selectCode_fits_of_lt (by omega)).trans (cap_mul_factor_le hwf (selectCode_bounds hwf e).1 h hn.le)
  · intro h
    by_contra hlt
    exact absurd (selectCode_min hwf h1 (Nat.lt_of_not_le hlt)) (Nat.not_lt.2 h)

theorem selectCode_mono {c : Config} (hwf : c.wf = true) {e e' : Nat} (h : e ≤ e') : c.selectCode e ≤ c.selectCode e' := by
  obtain ⟨h1, hk⟩ := selectCode_bounds hwf e'
  obtain hlt | heq := Nat.lt_or_eq_of_le hk
  · exact (selectCode_le_iff hwf h1 hlt).2 (h.trans (selectCode_fits_of_lt hlt))
  · exact heq ▸ (selectCode_bounds hwf e).2

theorem selectCode_eq_one {c : Config} (hwf : c.wf = true) {e : Nat} (h : e ≤ c.cap * c.factor 1) : c.selectCode e = 1 := by
  have hb := selectCode_bounds hwf e
  by_contra hne
  exact absurd (selectCode_min hwf le_rfl (by omega)) (Nat.not_lt.2 h)

theorem selectCode_eq_succ {c : Config} (hwf : c.wf = true) {e i : Nat} (h1 : 1 ≤ i) (hi : i < c.k)
    (hlo : c.cap * c.factor i < e) (hhi : e ≤ c.cap * c.factor (i + 1)) : c.selectCode e = i + 1 := by
  have hge : ¬c.selectCode e ≤ i := fun h => absurd ((selectCode_le_iff hwf h1 hi).1 h) (Nat.not_le.2 hlo)
  have hle : ¬i + 1 < c.selectCode e := fun h => absurd (selectCode_min hwf (by omega) h) (Nat.not_lt.2 hhi)
  omega

theorem selectCode_eq_k {c : Config} (hwf : c.wf = true) {e : Nat} (h : c.cap * c.factor c.k < e) : c.selectCode e = c.k := by
  obtain ⟨h1, hk⟩ := selectCode_bounds hwf e
  by_contra hne
  have hfits := selectCode_fits_of_lt (c := c) (e := e) (by omega)
  have hle := cap_mul_factor_le hwf h1 hk le_rfl
  omega

/-- The spec's table for `W = 16` and the default factors (41_selector.md R89). -/
theorem selWord_selectCode_default {c : Config} (hw : c.width = 16) (hd : c.divSet = [1, 8, 64, 256, 1024]) (e : Nat) :
    c.selWord (c.selectCode e) = if e ≤ 65535 then 0x00010001 else if e ≤ 524280 then 0x00080002
      else if e ≤ 4194240 then 0x00400003 else if e ≤ 16776960 then 0x01000004 else 0x04000005 := by
  have hcode : c.selectCode e = if e ≤ 65535 then 1 else if e ≤ 524280 then 2 else if e ≤ 4194240 then 3
      else if e ≤ 16776960 then 4 else 5 := by
    have hcap : c.cap = 65535 := by rw [cap, hw]; rfl
    simp only [selectCode, k, hd, hcap, List.findIdx?_cons, List.findIdx?_nil, decide_eq_true_eq, Nat.reduceMul]
    split_ifs <;> rfl
  rw [hcode]
  split_ifs <;> simp [selWord, factor, hd]

/-- With the default factors the products fit for every legal width (43_scaler.md R105). -/
theorem cap_mul_max_default {c : Config} (hwf : c.wf = true) (hd : c.divSet = [1, 8, 64, 256, 1024]) :
    c.cap * c.maxFactor ≤ 2 ^ 32 - 1 := by
  have hmax : c.maxFactor = 1024 := by simp [maxFactor, k, factor, hd]
  have hcap := cap_lt hwf
  rw [hmax]
  omega

end Sys2Proof.Config

namespace Sys2Proof.Machine

theorem exec_select_iff {s t : State} :
    exec .select s = .next t ↔ { s with sel := s.cfg.selWord (s.cfg.selectCode s.est.toNat) } = t :=
  iff_of_eq (Host.Outcome.next.injEq ..)

/-- A product that fits is the result, and SAT is 0. -/
theorem convert_of_le {a b : Nat} (hfits : a * b ≤ 2 ^ 32 - 1) (s : State) :
    (convert a b s).res.toNat = a * b ∧ (convert a b s).sat = false :=
  ⟨(satmul32_value_toNat a b).trans (Nat.min_eq_left hfits), congrArg Prod.snd (satmul32_of_le hfits)⟩

end Sys2Proof.Machine

namespace Sys2Proof.Proofs

/-- Settles O24: SELECT writes the SEL word of the code it searches for, which has the three fields. -/
theorem selectWritesTheChosenCodeAndFactor : Obligations.SelectWritesTheChosenCodeAndFactor := by
  refine ⟨by decide, fun s hwf => ?_⟩
  obtain ⟨h1, hk⟩ := Config.selectCode_bounds hwf s.est.toNat
  exact ⟨_, exec_select_iff.2 rfl, rfl, selCs_selWord hwf h1 hk, selFactor_selWord hwf h1 hk, selGap_selWord hwf h1 hk⟩

/-- Settles O26: TOCYC is the conversion of TICKS by the factor of CS. -/
theorem tocycMultipliesByTheRunningFactor : Obligations.TocycMultipliesByTheRunningFactor := by
  refine ⟨by decide, fun s n d hcs hd => ?product, fun s t hcs hd h => ?one⟩
  case product =>
    obtain rfl : s.cfg.factor s.cs.toNat = d := hcs ▸ Config.factor_of_getElem hd
    exact ⟨_, exec_tocyc_iff.2 rfl, rfl, satmul32_value_toNat _ _, satmul32_saturated_iff _ _⟩
  case one =>
    have hfactor : s.cfg.factor s.cs.toNat = 1 := hcs ▸ Config.factor_of_getElem hd
    obtain rfl := exec_tocyc_iff.1 h
    rw [hfactor]
    obtain ⟨hres, hsat⟩ := convert_of_le (a := s.ticks.toNat) (b := 1) (by omega) s
    exact ⟨BitVec.eq_of_toNat_eq (hres.trans (Nat.mul_one _)), hsat⟩

/-- Settles O28: TICKS and the factor are at most CAP and the largest factor, so their product fits. -/
theorem tocycIsExactInRange : Obligations.TocycIsExactInRange := by
  refine ⟨fun s t hwf h1 hk hticks hmax h => ?_, fun _ => Config.cap_mul_max_default, by decide⟩
  obtain rfl := exec_tocyc_iff.1 h
  exact convert_of_le ((Nat.mul_le_mul hticks (Config.factor_le_max hwf h1 hk)).trans hmax) s

/-- Settles O33: the choice is the first code with the capacity, so each range has its code and a larger estimate no smaller
one. -/
theorem selectionFollowsTheRangesAndIsMonotonic : Obligations.SelectionFollowsTheRangesAndIsMonotonic := by
  refine ⟨fun c e hwf => ⟨Config.selectCode_eq_one hwf, fun i => Config.selectCode_eq_succ hwf, Config.selectCode_eq_k hwf⟩,
    fun c e e' hwf => Config.selectCode_mono hwf, fun s t hw hd h => ?_⟩
  obtain rfl := exec_select_iff.1 h
  exact Config.selWord_selectCode_default hw hd _

end Sys2Proof.Proofs
end

section
/-! SUPPORT. Proofs about the counter's runs: the closed form of the count (40_counter.md R81), the run at a selected factor
(41_selector.md R91), START and STOP (40_counter.md R77, R79), and what leaves the counter alone (R85). -/

open Sys2Proof Sys2Proof.Machine

namespace Sys2Proof.Machine

/-! ### The count after `n` clock steps (40_counter.md R81) -/

/-- The counter runs at a legal code, with PSC and CNT in their ranges. -/
structure Counting (s : State) : Prop where
  params : s.cfg.wf = true
  code : 1 ≤ s.cs.toNat ∧ s.cs.toNat ≤ s.cfg.k
  run : s.run = true
  phase : s.psc.toNat < s.cfg.factor s.cs.toNat
  count : s.cnt.toNat ≤ s.cfg.cap

/-- `t` holds the closed form of R81 for `n` clock steps from `s`. -/
structure Counted (s t : State) (n : Nat) : Prop where
  phase : t.psc.toNat = (s.psc.toNat + n) % s.cfg.factor s.cs.toNat
  count : t.cnt.toNat = (s.cnt.toNat + (s.psc.toNat + n) / s.cfg.factor s.cs.toNat) % 2 ^ s.cfg.width
  wrap : t.ovf = true ↔ s.ovf = true ∨ 2 ^ s.cfg.width ≤ s.cnt.toNat + (s.psc.toNat + n) / s.cfg.factor s.cs.toNat
  frame : t = { s with psc := t.psc, cnt := t.cnt, ovf := t.ovf }

theorem Counted.cfg_eq {s t : State} {n : Nat} (h : Counted s t n) : t.cfg = s.cfg := by rw [h.frame]

theorem Counted.cs_eq {s t : State} {n : Nat} (h : Counted s t n) : t.cs = s.cs := by rw [h.frame]

theorem Counted.run_eq {s t : State} {n : Nat} (h : Counted s t n) : t.run = s.run := by rw [h.frame]

theorem Counted.samePorts {s t : State} {n : Nat} (h : Counted s t n) : SamePorts s t := by
  rw [h.frame]
  exact ⟨rfl, rfl, rfl, rfl, rfl, rfl⟩

theorem Counted.sameGate {s t : State} {n : Nat} (h : Counted s t n) : SameGate s t := by
  rw [h.frame]
  exact ⟨rfl, rfl⟩

theorem Counting.count_lt {s : State} (h : Counting s) : s.cnt.toNat < 2 ^ s.cfg.width := by
  have := Config.cap_add_one s.cfg
  have := h.count
  omega

theorem Counting.counted_zero {s : State} (h : Counting s) : Counted s s 0 where
  phase := (Nat.mod_eq_of_lt h.phase).symm
  count := by rw [Nat.add_zero, Nat.div_eq_of_lt h.phase, Nat.add_zero, Nat.mod_eq_of_lt h.count_lt]
  wrap := by simp [Nat.div_eq_of_lt h.phase, h.count_lt]
  frame := rfl

/-- One clock step is the closed form for one step. -/
theorem Counting.counted_clockStep {s : State} (h : Counting s) : Counted s (clockStep s) 1 := by
  have hphase := h.phase
  have hcount := h.count
  have hlt := h.count_lt
  have hcap := Config.cap_lt h.params
  have hcap1 := Config.cap_add_one s.cfg
  have hf := (Config.factor_bounds h.params h.code.1 h.code.2).2
  obtain ⟨hrun, _⟩ | ⟨_, hpsc, hs⟩ | ⟨_, hpsc, hcnt, hs⟩ | ⟨_, hpsc, hcnt, hs⟩ := clockStep_cases s
  · simp [h.run] at hrun
  · have hdiv : (s.psc.toNat + 1) / s.cfg.factor s.cs.toNat = 0 := Nat.div_eq_of_lt hpsc
    have hinc : (s.psc + 1).toNat = s.psc.toNat + 1 := by bv_omega
    rw [hs]
    exact ⟨by simp only [hinc, Nat.mod_eq_of_lt hpsc], by simp only [hdiv, Nat.add_zero, Nat.mod_eq_of_lt hlt],
      by simp [hdiv, hlt], rfl⟩
  all_goals
    have hfull : s.psc.toNat + 1 = s.cfg.factor s.cs.toNat := by omega
    have hpos : 0 < s.cfg.factor s.cs.toNat := by omega
    rw [hs]
  · refine ⟨?_, ?_, ?_, rfl⟩ <;> simp [hfull, Nat.div_self hpos, hcnt, hcap1]
  · have hinc : (s.cnt + 1).toNat = s.cnt.toNat + 1 := by bv_omega
    have hlt' : s.cnt.toNat + 1 < 2 ^ s.cfg.width := by omega
    exact ⟨by simp [hfull], by simp only [hinc, hfull, Nat.div_self hpos, Nat.mod_eq_of_lt hlt'],
      by simp [hfull, Nat.div_self hpos, hlt'], rfl⟩

/-- The closed form holds the ranges it starts from. -/
theorem Counted.counting {s t : State} {n : Nat} (h : Counted s t n) (hs : Counting s) : Counting t where
  params := h.cfg_eq ▸ hs.params
  code := by rw [h.cfg_eq, h.cs_eq]; exact hs.code
  run := h.run_eq.trans hs.run
  phase := by
    rw [h.cfg_eq, h.cs_eq, h.phase]
    exact Nat.mod_lt _ (Nat.zero_lt_of_lt hs.phase)
  count := by
    have := Config.cap_add_one s.cfg
    have := Nat.mod_lt (s.cnt.toNat + (s.psc.toNat + n) / s.cfg.factor s.cs.toNat) (Nat.two_pow_pos s.cfg.width)
    rw [h.cfg_eq, h.count]
    omega

/-- Prescaling adds up: the ticks of `m + n` steps are those of `m` steps and those of `n` steps from the phase reached. -/
theorem ticks_add (p m n f : Nat) : (p + (m + n)) / f = (p + m) / f + ((p + m) % f + n) / f := by
  obtain rfl | hf := Nat.eq_zero_or_pos f
  · simp
  · conv_lhs => rw [← Nat.add_assoc, ← Nat.mod_add_div (p + m) f, Nat.add_right_comm, Nat.add_mul_div_left _ _ hf]
    exact Nat.add_comm _ _

/-- A sum reaches the modulus exactly if a part of it does, or the rest does from the part's residue. -/
theorem le_add_iff_of_mod (M a b : Nat) : M ≤ a ∨ M ≤ a % M + b ↔ M ≤ a + b := by
  obtain h | h := Nat.lt_or_ge a M
  · rw [Nat.mod_eq_of_lt h]
    omega
  · omega

theorem Counted.trans {s t u : State} {m n : Nat} (h : Counted s t m) (h' : Counted t u n) : Counted s u (m + n) where
  phase := by rw [h'.phase, h.cfg_eq, h.cs_eq, h.phase, Nat.mod_add_mod, Nat.add_assoc]
  count := by
    rw [h'.count, h.cfg_eq, h.cs_eq, h.count, h.phase, Nat.mod_add_mod, ticks_add, Nat.add_assoc]
  wrap := by
    rw [h'.wrap, h.wrap, h.cfg_eq, h.cs_eq, h.count, h.phase, or_assoc, le_add_iff_of_mod, ticks_add, Nat.add_assoc]
  frame := by
    rw [h'.frame]
    conv_lhs => rw [h.frame]

theorem Counting.counted_clockSteps {s : State} (h : Counting s) (n : Nat) : Counted s (clockSteps n s) n := by
  induction n generalizing s with
  | zero => exact h.counted_zero
  | succ n ih =>
    have hstep := h.counted_clockStep
    have hall := hstep.trans (ih (hstep.counting h))
    rwa [Nat.add_comm] at hall

/-- The state CFG and START leave: running at a legal code, with nothing counted. -/
structure Started (s : State) : Prop where
  params : s.cfg.wf = true
  code : 1 ≤ s.cs.toNat ∧ s.cs.toNat ≤ s.cfg.k
  run : s.run = true
  phase : s.psc = 0
  count : s.cnt = 0
  flag : s.ovf = false

theorem Started.counting {s : State} (h : Started s) : Counting s where
  params := h.params
  code := h.code
  run := h.run
  phase := h.phase ▸ (Config.factor_bounds h.params h.code.1 h.code.2).1
  count := h.count ▸ Nat.zero_le _

/-- From nothing counted, `n` clock steps make `n / factor` ticks. -/
theorem Started.ticks {s t : State} {n : Nat} (h : Started s) (hc : Counted s t n) :
    t.cnt.toNat = n / s.cfg.factor s.cs.toNat % 2 ^ s.cfg.width ∧
    (t.ovf = true ↔ 2 ^ s.cfg.width ≤ n / s.cfg.factor s.cs.toNat) :=
  ⟨by simpa [h.phase, h.count] using hc.count, by simpa [h.phase, h.count, h.flag] using hc.wrap⟩

/-- Below `2^W` ticks OVF stays 0, and the count is the number of ticks. -/
theorem noWrap_of_lt {ticks modulus count : Nat} {flag : Bool} (h : ticks < modulus) (hcount : count = ticks % modulus)
    (hflag : flag = true ↔ modulus ≤ ticks) : flag = false ∧ count = ticks :=
  ⟨Bool.eq_false_iff.2 fun ho => absurd (hflag.1 ho) (Nat.not_le.2 h), hcount.trans (Nat.mod_eq_of_lt h)⟩

/-! ### A run at the selected factor (41_selector.md R91) -/

/-- Up to an estimate within the capacity, the selected factor makes fewer than `2^W` ticks. -/
theorem selected_ticks_lt {c : Config} (hwf : c.wf = true) {e n : Nat} (hn : n ≤ e) (he : e ≤ c.cap * c.maxFactor) :
    n / c.factor (c.selectCode e) < 2 ^ c.width := by
  obtain ⟨h1, hk⟩ := Config.selectCode_bounds hwf e
  have hpos := (Config.factor_bounds hwf h1 hk).1
  have hle := Nat.div_le_of_le_mul (Nat.mul_comm _ _ ▸ hn.trans (Config.selectCode_fits he))
  have := Config.cap_add_one c
  omega

/-! ### START and STOP (40_counter.md R77, R79) -/

theorem tick_psc (s : State) : (tick s).psc = 0 := by
  unfold tick
  split <;> rfl

theorem startCode_of_ne_zero {cs : BitVec 3} (h : cs ≠ 0) (sel : Word) : startCode cs sel = cs := if_neg h

theorem perform_start_above {s : State} {cs : BitVec 3} (h : s.cfg.k < cs.toNat) :
    perform (encode (.start cs)) s = .next { s with ill := true } := by
  obtain ⟨e, he⟩ := (decode_error_iff s.cfg.k (encode (.start cs))).2
    (.inr (.inr (.inr ⟨fieldOp_encode (.start cs), by simpa [codeField] using h⟩)))
  exact perform_of_decode_error he

/-- The capture holds the whole count. -/
theorem capture_toNat (c : CounterWord) : (c.setWidth 32).toNat = c.toNat := BitVec.toNat_setWidth_of_le (by decide)

/-! ### What leaves the counter alone (40_counter.md R85) -/

/-- A clock step reads and writes the counter unit only. -/
theorem clockStep_sameCounter {s t : State} (hcfg : t.cfg = s.cfg) (h : SameCounter s t) :
    SameCounter (clockStep s) (clockStep t) := by
  obtain ⟨hcnt, hpsc, hrun, hcs, hovf, hticks⟩ := h
  simp only [clockStep, tick, hcfg, hcnt, hpsc, hrun, hcs]
  split_ifs <;> simp_all [SameCounter]

end Sys2Proof.Machine

namespace Sys2Proof.Proofs

/-- Settles O36: the closed form holds for one step, and closed forms compose. -/
theorem clockStepsHaveTheClosedForm : Obligations.ClockStepsHaveTheClosedForm := by
  intro s n hwf h1 hk hrun hpsc hcnt
  obtain ⟨hphase, hcount, hwrap, hframe⟩ := Counting.counted_clockSteps ⟨hwf, ⟨h1, hk⟩, hrun, hpsc, hcnt⟩ n
  exact ⟨hphase, hcount, hwrap, hframe⟩

/-- Settles O34: from CNT = PSC = 0 the closed form counts `n / factor` ticks, fewer than `2^W` at the selected factor. -/
theorem selectedFactorNeverWrapsAndIsTheSmallest : Obligations.SelectedFactorNeverWrapsAndIsTheSmallest := by
  intro s t u v n hwf he hn ht hu hv
  obtain rfl := exec_select_iff.1 ht
  obtain rfl := Host.Outcome.next.inj ((exec_cfg _).symm.trans hu)
  obtain ⟨h1, hk⟩ := Config.selectCode_bounds hwf s.est.toNat
  have hcode := selCs_selWord hwf h1 hk
  have hstarted : Started v := by
    obtain rfl := exec_start_iff.1 hv
    exact ⟨hwf, hcode.symm ▸ ⟨h1, hk⟩, rfl, rfl, rfl, rfl⟩
  obtain rfl := exec_start_iff.1 hv
  obtain ⟨hcnt, hovf⟩ := hstarted.ticks (hstarted.counting.counted_clockSteps n)
  have hlt := selected_ticks_lt hwf hn he
  rw [← hcode] at hlt
  obtain ⟨hzero, hexact⟩ := noWrap_of_lt hlt hcnt hovf
  exact ⟨hzero, hexact, fun c hc hc' => Config.selectCode_min hwf hc (hcode ▸ hc')⟩

/-- Settles O37: none of these writes the counter unit, and a clock step reads nothing else. -/
theorem otherCommandsLeaveTheCounterCounting : Obligations.OtherCommandsLeaveTheCounterCounting := by
  intro s t h
  suffices hframe : t.cfg = s.cfg ∧ SameCounter s t by
    obtain ⟨hcfg, hsame⟩ := hframe
    exact ⟨hsame, clockStep_sameCounter hcfg hsame⟩
  obtain h | h | h | h | h | h | h | h | h | ⟨v, e, hd, h⟩ | ⟨r, v, hr, h⟩ := h
  rotate_left 9
  · obtain rfl := Host.Outcome.next.inj ((perform_of_decode_error hd).symm.trans h)
    simp [SameCounter]
  · cases r
    case cmd => exact absurd rfl hr
    all_goals
      obtain rfl := Host.Outcome.next.inj h
      simp [SameCounter]
  all_goals
    obtain rfl := Host.Outcome.next.inj h
    simp [SameCounter]

/-- Settles O22: START's effect is its definition, and the word of a code above K is of the fourth illegal kind. -/
theorem startRunsAtTheNamedOrSelectedCode : Obligations.StartRunsAtTheNamedOrSelectedCode := by
  refine ⟨fun cs => ?word, fun _ => rfl, fun s cs hcs => ?named, fun s t cs h hpsc => ?tick, fun s cs hrun => ?stopped,
    fun s cs => perform_start_above⟩
  case word => exact (encode_toNat (.start cs)).trans (Nat.add_comm _ _)
  case named =>
    rw [exec_start_iff, startCode_of_ne_zero hcs]
  case tick =>
    obtain rfl := exec_start_iff.1 h
    have htick := clockStep_of_factor_le rfl hpsc
    exact ⟨htick, htick ▸ tick_psc _⟩
  case stopped => rw [clockStep_of_stopped hrun]

/-- Settles O23: STOP's effect is its definition, and TICKS holds all of the count. -/
theorem stopCapturesTheCount : Obligations.StopCapturesTheCount := by
  refine ⟨by decide, fun s => ?capture, fun s t u ht hu => ?afterCfg, fun s t h => ?afterEdge⟩
  case capture => exact ⟨_, exec_stop_iff.2 rfl, rfl, capture_toNat s.cnt, exec_stop_iff.2 rfl⟩
  case afterCfg =>
    obtain rfl := Host.Outcome.next.inj ((exec_cfg s).symm.trans ht)
    obtain rfl := exec_stop_iff.1 hu
    rfl
  case afterEdge =>
    obtain rfl := exec_stop_iff.1 h
    exact capture_toNat _

end Sys2Proof.Proofs
end

section
/-! SUPPORT. Proofs about the invariant: the commands, the clock step and the other agents' steps keep it
(10_state.md R20, R23, R25, R27; 70_reset_and_hazards.md R135). -/

open Sys2Proof Sys2Proof.Machine

namespace Sys2Proof.Machine

/-! ### What the invariant is about -/

/-- The clause on a held reset says nothing while `rst` is low. -/
theorem held_of_low {s : State} (hr : s.rst = false) : s.rst = true → resetRegisters s = s :=
  fun h => absurd (hr.symm.trans h) Bool.false_ne_true

theorem State.Inv.afterEvent {s : State} (h : s.Inv) : (afterEvent s).Inv where
  params := by simpa using h.params
  count := by simpa using h.count
  phase := by simpa using h.phase
  code := by simpa using h.code
  capture := by simpa using h.capture
  selection := by simpa using h.selection
  lines := by simpa using h.lines
  held hr := by rw [resetRegisters_afterEvent, h.held (by simpa using hr)]

theorem State.Inv.maxFactor_pos {s : State} (h : s.Inv) : 0 < s.cfg.maxFactor := Nat.zero_lt_of_lt h.phase

/-- `SEL.CS` is a code `1..K` (10_state.md R27). -/
theorem State.Inv.selCs_bounds {s : State} (h : s.Inv) : 1 ≤ (selCs s.sel).toNat ∧ (selCs s.sel).toNat ≤ s.cfg.k := by
  obtain ⟨c, h1, hk, hsel⟩ := h.selection
  rw [hsel, selCs_selWord h.params h1 hk]
  exact ⟨h1, hk⟩

/-- The code START resolves is a code `1..K` (40_counter.md R77). -/
theorem State.Inv.startCode_bounds {s : State} (h : s.Inv) {cs : BitVec 3} (hcs : cs.toNat ≤ s.cfg.k) :
    1 ≤ (startCode cs s.sel).toNat ∧ (startCode cs s.sel).toNat ≤ s.cfg.k := by
  unfold startCode
  split
  case isTrue => exact h.selCs_bounds
  case isFalse hne => exact ⟨Nat.pos_of_ne_zero fun h0 => hne (BitVec.eq_of_toNat_eq h0), hcs⟩

/-! ### Each agent's step keeps it -/

theorem exec_inv {i : Instr} {s t : State} (h : s.Inv) (hr : s.rst = false) (hi : i.wf s.cfg.k = true)
    (ht : exec i s = .next t) : t.Inv := by
  cases i <;> obtain rfl := Host.Outcome.next.inj ht
  case cfg => exact { h with count := Nat.zero_le _, phase := h.maxFactor_pos, held := held_of_low hr }
  case start cs =>
    exact { h with code := h.startCode_bounds (of_decide_eq_true hi), held := held_of_low hr }
  case stop =>
    have hcap : (s.cnt.setWidth 32).toNat ≤ s.cfg.cap := capture_toNat s.cnt ▸ h.count
    exact { h with capture := hcap, held := held_of_low hr }
  case select =>
    obtain ⟨h1, hk⟩ := Config.selectCode_bounds h.params s.est.toNat
    exact { h with selection := ⟨_, h1, hk, rfl⟩, held := held_of_low hr }
  case nop => exact h
  all_goals exact { h with held := held_of_low hr }

theorem clockStep_inv {s : State} (h : s.Inv) (hr : s.rst = false) : (clockStep s).Inv := by
  obtain ⟨h1, hk⟩ := h.code
  obtain ⟨-, hfactor⟩ := Config.factor_bounds h.params h1 hk
  have hmax := Config.factor_le_max h.params h1 hk
  have hcap := Config.cap_lt h.params
  have hcnt := h.count
  obtain ⟨_, hs⟩ | ⟨_, hlt, hs⟩ | ⟨_, _, _, hs⟩ | ⟨_, _, hne, hs⟩ := clockStep_cases s <;> rw [hs]
  · exact h
  · have hpsc : (s.psc + 1).toNat < s.cfg.maxFactor := by bv_omega
    exact { h with phase := hpsc, held := held_of_low hr }
  · exact { h with count := Nat.zero_le _, phase := h.maxFactor_pos, held := held_of_low hr }
  · have hcnt' : (s.cnt + 1).toNat ≤ s.cfg.cap := by bv_omega
    exact { h with count := hcnt', phase := h.maxFactor_pos, held := held_of_low hr }

theorem setLine_inv {s : State} (h : s.Inv) {l : Nat} (hl : l < s.cfg.nIrq) (b : Bool) : (setLine l b s).Inv := by
  have hlines : (setLine l b s).irqIn.toNat < 2 ^ s.cfg.nIrq := by
    cases b
    · simpa using Nat.and_le_left.trans_lt h.lines
    · have hbit : 2 ^ l % 2 ^ 32 < 2 ^ s.cfg.nIrq :=
        (Nat.mod_le _ _).trans_lt (Nat.pow_lt_pow_right (by decide) hl)
      simpa [BitVec.toNat_twoPow] using Nat.or_lt_two_pow h.lines hbit
  exact { h with lines := hlines, held := fun hr => congrArg (setLine l b) (h.held hr) }

/-- Legal parameters are all that the reset values need (10_state.md R41). -/
theorem resetWith_inv {c : Config} (hwf : c.wf = true) : (State.resetWith c).Inv :=
  have ⟨hk, _⟩ := Config.wf_k hwf
  have ⟨hfactor, _⟩ := Config.factor_bounds hwf hk le_rfl
  { params := hwf
    count := Nat.zero_le _
    phase := hfactor
    code := ⟨le_rfl, hk⟩
    capture := Nat.zero_le _
    selection := ⟨1, le_rfl, hk, rfl⟩
    lines := Nat.two_pow_pos _
    held := held_of_low rfl }

theorem assertReset_inv {s : State} (h : s.Inv) : ({ resetRegisters s with rst := true } : State).Inv :=
  { resetWith_inv h.params with lines := h.lines, held := fun _ => rfl }

/-- The invariant is kept by every step. -/
theorem step_inv {s t : State} (h : s.Inv) (hstep : step s = .next t) : t.Inv := by
  obtain ⟨-, hc⟩ := step_next hstep
  have hu := h.afterEvent
  cases hc with
  | command i hp hr ht =>
    obtain ⟨v, -, hd⟩ := hp
    obtain ⟨-, -, -, hi⟩ := decode_ok hd
    exact exec_inv hu (by simpa using hr) (by simpa using hi) ht
  | clock _ hr ht => exact ht ▸ clockStep_inv hu (by simpa using hr)
  | clockHeld _ _ ht => exact ht ▸ hu
  | line l b _ hl ht => exact ht ▸ setLine_inv hu (by simpa using hl) b
  | assert _ ht => exact ht ▸ assertReset_inv hu
  | release _ ht => exact ht ▸ { hu with held := held_of_low rfl }
  | read _ _ hr ht | offence _ hr ht | estimate _ _ hr ht | multiplier _ _ hr ht =>
    exact ht ▸ { hu with held := held_of_low (by simpa using hr) }

end Sys2Proof.Machine

namespace Sys2Proof.Proofs

/-- Settles O49: each agent's step keeps the invariant, and `step_next` lists them all. -/
theorem everyStepKeepsTheInvariant : Obligations.EveryStepKeepsTheInvariant :=
  fun _ _ h hstep => step_inv h hstep

/-- Settles O48: the reset values of any legal parameters satisfy the invariant, and the defaults are legal. -/
theorem invariantHoldsAfterReset : Obligations.InvariantHoldsAfterReset :=
  resetWith_inv (by decide : Config.defaults.wf = true)

end Sys2Proof.Proofs
end

section
/-! SUPPORT. Proofs about the writers: which commands write each register, which steps can change it (10_state.md R20 to R33,
R37), and why delivery stays suppressed (42_gate.md R101). -/

open Sys2Proof Sys2Proof.Machine

namespace Sys2Proof.Machine

/-! ### The commands that write each register (10_state.md R20 to R33) -/

section

variable {i : Instr} {s t : State}

/-- The counter unit is written by CFG, START and STOP only. -/
theorem exec_counter_writers (h : exec i s = .next t) :
    (t.cnt ≠ s.cnt → i = .cfg) ∧ (t.psc ≠ s.psc → i = .cfg) ∧
    (t.run ≠ s.run → (∃ cs, i = .start cs) ∨ i = .stop ∨ i = .cfg) ∧ (t.cs ≠ s.cs → ∃ cs, i = .start cs) ∧
    (t.ovf ≠ s.ovf → i = .cfg) ∧ (t.ticks ≠ s.ticks → i = .stop) := by
  cases i <;> obtain rfl := Host.Outcome.next.inj h <;> simp

/-- The other registers are written by the selector's, the scaler's and the gate's commands and by CLRERR. -/
theorem exec_other_writers (h : exec i s = .next t) :
    t.est = s.est ∧ t.mul = s.mul ∧ (t.sel ≠ s.sel → i = .select) ∧ (t.res ≠ s.res → i = .tocyc ∨ i = .tous) ∧
    (t.sat ≠ s.sat → i = .tocyc ∨ i = .tous) ∧ (t.gie ≠ s.gie → i = .gsave ∨ i = .grest ∨ i = .gen ∨ i = .gdis) ∧
    (t.saved ≠ s.saved → i = .gsave) ∧ (t.ill ≠ s.ill → i = .clrerr) := by
  cases i <;> obtain rfl := Host.Outcome.next.inj h <;> simp

end

/-! ### The steps that can change each register -/

section

variable {s t : State}

theorem step_counter_writers (h : step s = .next t) :
    (t.cnt ≠ s.cnt → performs s .cfg ∨ nextEvent s = .clock ∨ resets s) ∧
    (t.psc ≠ s.psc → performs s .cfg ∨ nextEvent s = .clock ∨ resets s) ∧
    (t.run ≠ s.run → (∃ cs, performs s (.start cs)) ∨ performs s .stop ∨ performs s .cfg ∨ resets s) ∧
    (t.cs ≠ s.cs → (∃ cs, performs s (.start cs)) ∨ resets s) ∧
    (t.ovf ≠ s.ovf → performs s .cfg ∨ nextEvent s = .clock ∨ resets s) ∧
    (t.ticks ≠ s.ticks → performs s .stop ∨ resets s) := by
  obtain ⟨-, hc⟩ := step_next h
  cases hc with
  | command i hp _ ht =>
    obtain ⟨hcnt, hpsc, hrun, hcs, hovf, hticks⟩ := exec_counter_writers ht
    simp only [afterEvent_cnt, afterEvent_psc, afterEvent_run, afterEvent_cs, afterEvent_ovf, afterEvent_ticks] at *
    refine ⟨fun hne => .inl (hcnt hne ▸ hp), fun hne => .inl (hpsc hne ▸ hp), fun hne => ?run, fun hne => ?code,
      fun hne => .inl (hovf hne ▸ hp), fun hne => .inl (hticks hne ▸ hp)⟩
    case run =>
      obtain ⟨cs, rfl⟩ | rfl | rfl := hrun hne
      · exact .inl ⟨cs, hp⟩
      · exact .inr (.inl hp)
      · exact .inr (.inr (.inl hp))
    case code =>
      obtain ⟨cs, rfl⟩ := hcs hne
      exact .inl ⟨cs, hp⟩
  | clock he _ ht => simp [ht, he]
  | assert he ht => simp [he]
  | read _ _ _ ht | offence _ _ ht | estimate _ _ _ ht | multiplier _ _ _ ht | clockHeld _ _ ht
  | line _ _ _ _ ht | release _ ht => simp [ht]

theorem step_other_writers (h : step s = .next t) :
    (t.est ≠ s.est → (∃ v, writes s .est v) ∨ resets s) ∧
    (t.mul ≠ s.mul → (∃ v, writes s .mul v) ∨ resets s) ∧
    (t.sel ≠ s.sel → performs s .select ∨ resets s) ∧
    (t.res ≠ s.res → performs s .tocyc ∨ performs s .tous ∨ resets s) ∧
    (t.sat ≠ s.sat → performs s .tocyc ∨ performs s .tous ∨ resets s) ∧
    (t.gie ≠ s.gie → performs s .gsave ∨ performs s .grest ∨ performs s .gen ∨ performs s .gdis ∨ resets s) ∧
    (t.saved ≠ s.saved → performs s .gsave ∨ resets s) ∧
    (t.ill ≠ s.ill → offends s ∨ performs s .clrerr ∨ resets s) := by
  obtain ⟨-, hc⟩ := step_next h
  cases hc with
  | command i hp _ ht =>
    obtain ⟨hest, hmul, hsel, hres, hsat, hgie, hsaved, hill⟩ := exec_other_writers ht
    simp only [afterEvent_est, afterEvent_mul, afterEvent_sel, afterEvent_res, afterEvent_sat, afterEvent_gie,
      afterEvent_saved, afterEvent_ill] at *
    refine ⟨fun hne => absurd hest hne, fun hne => absurd hmul hne, fun hne => .inl (hsel hne ▸ hp), fun hne => ?res,
      fun hne => ?sat, fun hne => ?gie, fun hne => .inl (hsaved hne ▸ hp), fun hne => .inr (.inl (hill hne ▸ hp))⟩
    case res => obtain rfl | rfl := hres hne <;> simp [hp]
    case sat => obtain rfl | rfl := hsat hne <;> simp [hp]
    case gie => obtain rfl | rfl | rfl | rfl := hgie hne <;> simp [hp]
  | offence ho _ ht => simp [ht, ho]
  | estimate v hw _ ht =>
    have hwrite : ∃ v, writes s .est v := ⟨v, hw⟩
    simp [ht, hwrite]
  | multiplier v hw _ ht =>
    have hwrite : ∃ v, writes s .mul v := ⟨v, hw⟩
    simp [ht, hwrite]
  | assert he ht => simp [he]
  | read _ _ _ ht | clockHeld _ _ ht | clock _ _ ht | line _ _ _ _ ht | release _ ht => simp [ht]

end

/-! ### The sticky flags (10_state.md R24, R31, R37) -/

theorem exec_flags {i : Instr} {s t : State} (h : exec i s = .next t) :
    (t.ovf = s.ovf ∨ (i = .cfg ∧ t.ovf = false)) ∧ (t.ill = s.ill ∨ (i = .clrerr ∧ t.ill = false)) := by
  cases i <;> obtain rfl := Host.Outcome.next.inj h <;> simp

/-- A clock step sets OVF exactly by a wrap, and never clears it. -/
theorem clockStep_flag (s : State) :
    (clockStep s).ovf = s.ovf ∨ ((clockStep s).ovf = true ∧ s.run = true ∧ s.cnt.toNat = s.cfg.cap) := by
  obtain ⟨_, h⟩ | ⟨_, _, h⟩ | ⟨hrun, _, hcnt, h⟩ | ⟨_, _, _, h⟩ := clockStep_cases s <;> rw [h]
  case inr.inr.inl => exact .inr ⟨rfl, hrun, hcnt⟩
  all_goals exact .inl rfl

theorem step_ovf {s t : State} (h : step s = .next t) :
    t.ovf = s.ovf ∨ (t.ovf = true ∧ nextEvent s = .clock ∧ s.run = true ∧ s.cnt.toNat = s.cfg.cap) ∨
      (t.ovf = false ∧ (performs s .cfg ∨ resets s)) := by
  obtain ⟨-, hc⟩ := step_next h
  cases hc with
  | command i hp _ ht =>
    obtain ⟨hovf | ⟨rfl, hovf⟩, -⟩ := exec_flags ht
    · exact .inl (hovf.trans (afterEvent_ovf s))
    · exact .inr (.inr ⟨hovf, .inl hp⟩)
  | clock he _ ht =>
    obtain hovf | ⟨hovf, hrun, hcnt⟩ := clockStep_flag (afterEvent s) <;> rw [← ht] at hovf
    · exact .inl (hovf.trans (afterEvent_ovf s))
    · exact .inr (.inl ⟨hovf, he, by simpa using hrun, by simpa using hcnt⟩)
  | assert he ht => exact .inr (.inr ⟨by simp [ht], .inr he⟩)
  | read _ _ _ ht | offence _ _ ht | estimate _ _ _ ht | multiplier _ _ _ ht | clockHeld _ _ ht
  | line _ _ _ _ ht | release _ ht => exact .inl (by simp [ht])

theorem step_ill {s t : State} (h : step s = .next t) :
    t.ill = s.ill ∨ (t.ill = true ∧ offends s) ∨ (t.ill = false ∧ (performs s .clrerr ∨ resets s)) := by
  obtain ⟨-, hc⟩ := step_next h
  cases hc with
  | command i hp _ ht =>
    obtain ⟨-, hill | ⟨rfl, hill⟩⟩ := exec_flags ht
    · exact .inl (hill.trans (afterEvent_ill s))
    · exact .inr (.inr ⟨hill, .inl hp⟩)
  | offence ho _ ht => exact .inr (.inl ⟨by simp [ht], ho⟩)
  | assert he ht => exact .inr (.inr ⟨by simp [ht], .inr he⟩)
  | read _ _ _ ht | estimate _ _ _ ht | multiplier _ _ _ ht | clockHeld _ _ ht | clock _ _ ht
  | line _ _ _ _ ht | release _ ht => exact .inl (by simp [ht])

/-! ### The gate's registers (42_gate.md R95 to R98) -/

theorem exec_gate_cases {i : Instr} {s t : State} (h : exec i s = .next t) :
    SameGate s t ∨ (i = .gsave ∧ t.gie = false ∧ t.saved = s.gie) ∨ (i = .grest ∧ t.gie = s.saved ∧ t.saved = s.saved) ∨
      i = .gen ∨ (i = .gdis ∧ t.gie = false ∧ t.saved = s.saved) := by
  cases i <;> obtain rfl := Host.Outcome.next.inj h <;> simp [SameGate]

/-- What a step can do to GIE and SAVED, but for a GEN. -/
theorem step_gate_cases {s t : State} (h : step s = .next t) (hgen : ¬performs s .gen) :
    SameGate s t ∨ (t.gie = false ∧ (t.saved = s.gie ∨ t.saved = s.saved ∨ t.saved = false)) ∨
      (performs s .grest ∧ t.gie = s.saved ∧ t.saved = s.saved) := by
  obtain ⟨-, hc⟩ := step_next h
  cases hc with
  | command i hp _ ht =>
    have hcases := exec_gate_cases ht
    simp only [SameGate, afterEvent_gie, afterEvent_saved] at hcases
    obtain hsame | ⟨rfl, hgie, hsaved⟩ | ⟨rfl, hgrest⟩ | rfl | ⟨rfl, hgie, hsaved⟩ := hcases
    · exact .inl hsame
    · exact .inr (.inl ⟨hgie, .inl hsaved⟩)
    · exact .inr (.inr ⟨hp, hgrest⟩)
    · exact absurd hp hgen
    · exact .inr (.inl ⟨hgie, .inr (.inl hsaved)⟩)
  | assert _ ht => exact .inr (.inl ⟨by simp [ht], .inr (.inr (by simp [ht]))⟩)
  | read _ _ _ ht | offence _ _ ht | estimate _ _ _ ht | multiplier _ _ _ ht | clockHeld _ _ ht | clock _ _ ht
  | line _ _ _ _ ht | release _ ht => exact .inl (by simp [SameGate, ht])

end Sys2Proof.Machine

namespace Sys2Proof.Proofs

/-- Settles O38: by the commands' writers, and by what each other agent's step leaves alone. -/
theorem counterRegistersChangeOnlyByTheirWriters : Obligations.CounterRegistersChangeOnlyByTheirWriters :=
  fun _ _ => step_counter_writers

/-- Settles O39: as O38, for the selector, the scaler, the gate and ILL. -/
theorem otherRegistersChangeOnlyByTheirWriters : Obligations.OtherRegistersChangeOnlyByTheirWriters :=
  fun _ _ => step_other_writers

/-- Settles O40: OVF and ILL keep their value but for the listed steps, each of which gives it one value. -/
theorem stickyFlagsAreSetAndClearedOnlyAsListed : Obligations.StickyFlagsAreSetAndClearedOnlyAsListed := by
  intro s t h
  have hovf := step_ovf h
  have hill := step_ill h
  refine ⟨fun h0 h1 => ?_, fun h1 h0 => ?_, fun h0 h1 => ?_, fun h1 h0 => ?_⟩ <;> simp_all

/-- Settles O45: with GIE = 0 only a GREST can restore the enable, and what it restores is SAVED. -/
theorem deliveryStaysSuppressedUntilReenabled : Obligations.DeliveryStaysSuppressedUntilReenabled := by
  refine ⟨fun s t h hgie hgrest hgen => ?_, ⟨rfl, rfl⟩, fun s t h hgie hsaved hgen => ?_⟩
  · have hoff : t.gie = false := by
      obtain ⟨hsame, -⟩ | ⟨hoff, -⟩ | ⟨hp, -⟩ := step_gate_cases h hgen
      · exact hsame.trans hgie
      · exact hoff
      · exact absurd hp hgrest
    exact ⟨hoff, irqOut_of_gie hoff⟩
  · obtain ⟨hoff, hsaved'⟩ : t.gie = false ∧ t.saved = false := by
      obtain ⟨hg, hs⟩ | ⟨hg, hs⟩ | ⟨-, hg, hs⟩ := step_gate_cases h hgen <;> simp_all
    exact ⟨hoff, hsaved', irqOut_of_gie hoff⟩

end Sys2Proof.Proofs
end

section
/-! SUPPORT. Proofs about reset: the values of the reset table (10_state.md R41), and what holds while `rst` is high and after
its release (70_reset_and_hazards.md R135). -/

open Sys2Proof Sys2Proof.Machine

namespace Sys2Proof.Machine

/-- A state whose registers are at their reset values delivers no line: GIE is one of them. -/
theorem irqOut_of_reset {s : State} (h : resetRegisters s = s) (i : Nat) : irqOut s i = false :=
  irqOut_of_gie (h ▸ resetRegisters_gie s) i

/-- Steps while `rst` is high: registers that are at their reset values stay there, and no host access is performed. -/
theorem step_of_held {s t : State} (hr : s.rst = true) (hheld : resetRegisters s = s) (h : step s = .next t) :
    resetRegisters t = t ∧ (nextEvent s ≠ .rst false → t.rst = true) ∧ (nextEvent s = .rst false → t.rst = false) ∧
      ∀ a, nextEvent s ≠ .host a := by
  have hu : resetRegisters (afterEvent s) = afterEvent s := by rw [resetRegisters_afterEvent, hheld]
  obtain ⟨-, hc⟩ := step_next h
  cases hc with
  | clockHeld he _ ht => exact ⟨ht ▸ hu, fun _ => by simp [ht, hr], by simp [he], by simp [he]⟩
  | line l b he _ ht =>
    exact ⟨ht ▸ congrArg (setLine l b) hu, fun _ => by simp [ht, hr], by simp [he], by simp [he]⟩
  | assert he ht =>
    have he : nextEvent s = .rst true := he
    exact ⟨ht ▸ rfl, fun _ => by simp [ht], by simp [he], by simp [he]⟩
  | release he ht =>
    have hlow : resetRegisters { afterEvent s with rst := false } = { resetRegisters (afterEvent s) with rst := false } := rfl
    exact ⟨by rw [ht, hlow, hu], fun hne => absurd he hne, fun _ => by simp [ht], by simp [he]⟩
  | read _ _ hlow | command _ _ hlow | offence _ hlow | estimate _ _ hlow | multiplier _ _ hlow | clock _ hlow =>
    simp [hr] at hlow

/-- An announced assertion and release: the registers are reset and `rst` is low. -/
theorem runSteps_assert_release {s : State} (hwf : s.cfg.wf = true) {rest : List Event}
    (h : s.inputs = .rst true :: .rst false :: rest) :
    runSteps 2 s = .next { resetRegisters s with inputs := rest, rdata := none, rst := false } := by
  rw [runSteps_succ (step_assert hwf h)]
  exact runSteps_succ (n := 0) (step_release hwf rfl)

/-- The factor of code 1 is the first of the list. -/
theorem factor_one {c : Config} (hwf : c.wf = true) : some (c.factor 1) = c.divSet[0]? := by
  obtain ⟨hl, he⟩ := Config.factor_eq (c := c) le_rfl (Config.wf_k hwf).1
  simp [he]

end Sys2Proof.Machine

namespace Sys2Proof.Proofs

/-- Settles O46: the assertion gives the reset values, and SEL's is the word of code 1. -/
theorem resetGivesEveryRegisterItsTableValue : Obligations.ResetGivesEveryRegisterItsTableValue := by
  refine ⟨fun s rest hwf h => ?_, by decide⟩
  have h1 := (Config.wf_k hwf).1
  exact ⟨_, step_assert hwf h, rfl, rfl, rfl, rfl, rfl, rfl, rfl, selCs_selWord hwf le_rfl h1,
    (congrArg some (selFactor_selWord hwf le_rfl h1)).trans (factor_one hwf), selGap_selWord hwf le_rfl h1,
    rfl, rfl, rfl, rfl, rfl, rfl, rfl, rfl, rfl, rfl⟩

/-- Settles O47: the registers of a held reset stay at their reset values, GIE among them. -/
theorem resetHoldsWhileAsserted : Obligations.ResetHoldsWhileAsserted := by
  refine ⟨fun s t hinv hr h => ?held, fun s rest => step_release, fun s rest hwf hm h => ?pair⟩
  case held =>
    obtain ⟨hreset, hkeep, hlow, hhost⟩ := step_of_held hr (hinv.held hr) h
    exact ⟨hreset, irqOut_of_reset hreset, hkeep, hlow, hhost⟩
  case pair => exact ⟨_, runSteps_assert_release hwf h, ⟨hwf, hm, rfl⟩, rfl, rfl⟩

end Sys2Proof.Proofs
end

section
/-! SUPPORT. Proofs about the measurement: the run of START, the workload and STOP, alone (40_counter.md R81) and inside the
required sequence (70_reset_and_hazards.md R141, R142). -/

open Sys2Proof Sys2Proof.Machine

namespace Sys2Proof.Machine

/-! ### The workload -/

theorem Counted.withPorts {s t : State} {n : Nat} (h : Counted s t n) (l : List Event) (d : Option Word) :
    Counted { s with inputs := l, rdata := d } { t with inputs := l, rdata := d } n :=
  { h with frame := congrArg (fun u : State => { u with inputs := l, rdata := d }) h.frame }

/-- A workload of `n` announced clock steps counts `n` clock steps. -/
theorem runSteps_clocks {n : Nat} {s : State} {rest : List Event} (hs : Counting s) (hr : s.rst = false)
    (h : s.inputs = List.replicate n .clock ++ rest) :
    ∃ t d, runSteps n s = .next t ∧ Counted { s with inputs := rest, rdata := d } t n := by
  induction n generalizing s with
  | zero =>
    subst h
    exact ⟨s, s.rdata, rfl, hs.counted_zero⟩
  | succ n ih =>
    have hu : Counting { s with inputs := List.replicate n .clock ++ rest, rdata := none } := { hs with }
    have hstep := hu.counted_clockStep
    obtain ⟨t, d, hrun, hcounted⟩ := ih (hstep.counting hu) (by simpa using hr) (by simp)
    have hall := (hstep.withPorts rest d).trans hcounted
    rw [Nat.add_comm] at hall
    exact ⟨t, d, (runSteps_succ (step_clock hs.params hr h)).trans hrun, hall⟩

/-! ### A workload and STOP -/

/-- `t` is stopped and holds in TICKS and OVF what `n` clock steps count from nothing, at the code `s` runs at. -/
structure Measured (s t : State) (n : Nat) : Prop where
  stopped : t.run = false
  code : t.cs = s.cs
  ticks : t.ticks.toNat = n / s.cfg.factor t.cs.toNat % 2 ^ s.cfg.width
  wrap : t.ovf = true ↔ 2 ^ s.cfg.width ≤ n / s.cfg.factor t.cs.toNat
  params : t.cfg = s.cfg
  released : t.rst = s.rst
  gate : SameGate s t

theorem runSteps_clocks_stop {s : State} {n : Nat} {rest : List Event} (hs : Started s) (hready : s.Ready)
    (h : s.inputs = List.replicate n .clock ++ commandWrite s.cfg (encode .stop) :: rest) :
    ∃ t, runSteps (n + 1) s = .next t ∧ t.inputs = rest ∧ Measured s t n := by
  obtain ⟨hwf, hm, hr⟩ := hready
  obtain ⟨u, d, hrun, hu⟩ := runSteps_clocks hs.counting hr h
  have hstarted : Started { s with inputs := commandWrite s.cfg (encode .stop) :: rest, rdata := d } := { hs with }
  obtain ⟨hcount, hwrap⟩ := hstarted.ticks hu
  obtain ⟨hcfg, hrst, -, -, hinputs, -⟩ := hu.samePorts
  have huready : u.Ready := ⟨hcfg ▸ hwf, hcfg ▸ hm, hrst.trans hr⟩
  have hstop := step_command_next (i := .stop) huready rfl (hcfg ▸ hinputs) (exec_stop_iff.2 rfl)
  refine ⟨_, (runSteps_add hrun).trans (runSteps_succ (n := 0) hstop), rfl, ?_⟩
  exact ⟨rfl, hu.cs_eq, by rw [capture_toNat, hcount, hu.cs_eq], by rw [hu.cs_eq]; exact hwrap, hcfg, hrst, hu.sameGate⟩

/-! ### The other lines of the sequence -/

section

variable {s : State} {rest : List Event}

theorem step_cfg (hs : s.Ready) (h : s.inputs = commandWrite s.cfg (encode .cfg) :: rest) :
    step s = .next { s with inputs := rest, rdata := none, run := false, cnt := 0, psc := 0, ovf := false } :=
  (step_command hs rfl h).trans (exec_cfg _)

theorem step_start (hs : s.Ready) {cs : BitVec 3} (hcs : cs.toNat ≤ s.cfg.k)
    (h : s.inputs = commandWrite s.cfg (encode (.start cs)) :: rest) :
    step s = .next { s with inputs := rest, rdata := none, cs := startCode cs s.sel, run := true } :=
  (step_command hs (i := .start cs) (decide_eq_true hcs) h).trans (exec_start_iff.2 rfl)

theorem step_select (hs : s.Ready) (h : s.inputs = commandWrite s.cfg (encode .select) :: rest) :
    step s = .next { s with inputs := rest, rdata := none, sel := s.cfg.selWord (s.cfg.selectCode s.est.toNat) } :=
  (step_command hs rfl h).trans (exec_select_iff.2 rfl)

theorem step_est (hs : s.Ready) {v : Word} (h : s.inputs = .host (.write (s.cfg.base + regOffset .est) 4 v) :: rest) :
    step s = .next { s with inputs := rest, rdata := none, est := v } := step_write hs (r := .est) h

end

/-- The inputs of a timed run: START, `n` clock steps, STOP. -/
def timedEvents (c : Config) (cs : BitVec 3) (n : Nat) (rest : List Event) : List Event :=
  commandWrite c (encode (.start cs)) :: (List.replicate n .clock ++ commandWrite c (encode .stop) :: rest)

/-- A timed run from a state in which nothing is counted. -/
theorem runSteps_timed {s : State} (hs : s.Ready) {cs : BitVec 3} {n : Nat} {rest : List Event} (hcs : cs.toNat ≤ s.cfg.k)
    (hcode : 1 ≤ (startCode cs s.sel).toNat ∧ (startCode cs s.sel).toNat ≤ s.cfg.k) (hpsc : s.psc = 0) (hcnt : s.cnt = 0)
    (hovf : s.ovf = false) (h : s.inputs = timedEvents s.cfg cs n rest) :
    ∃ t, runSteps (n + 2) s = .next t ∧ t.inputs = rest ∧ Measured { s with cs := startCode cs s.sel } t n := by
  have hstart := step_start hs hcs h
  obtain ⟨t, hrun, hinputs, ht⟩ := runSteps_clocks_stop (n := n) (rest := rest)
    (s := { s with
      inputs := List.replicate n .clock ++ commandWrite s.cfg (encode .stop) :: rest, rdata := none,
      cs := startCode cs s.sel, run := true })
    ⟨hs.1, hcode, rfl, hpsc, hcnt, hovf⟩ hs rfl
  exact ⟨t, (runSteps_succ hstart).trans hrun, hinputs, { ht with }⟩

/-- The state after `frc.window.open` (30_encoding.md R71): delivery suppressed with GIE saved, and nothing counted. -/
def windowOpened (s : State) (rest : List Event) : State :=
  { s with
    inputs := rest, rdata := none, saved := s.gie, gie := false, run := false, cnt := 0, psc := 0, ovf := false }

theorem runSteps_windowOpen {s : State} (hs : s.Ready) {rest : List Event}
    (h : s.inputs = commandWrite s.cfg (encode .gsave) :: commandWrite s.cfg (encode .cfg) :: rest) :
    runSteps 2 s = .next (windowOpened s rest) :=
  (runSteps_succ (step_gsave hs h)).trans (runSteps_succ (n := 0) (step_cfg hs rfl))

/-- The inputs of `frc.arm` (30_encoding.md R71). -/
def armEvents (c : Config) (est : Word) (rest : List Event) : List Event :=
  .host (.write (c.base + regOffset .est) 4 est) :: commandWrite c (encode .select) :: rest

/-- The state after `frc.arm` (30_encoding.md R71): the estimate stored, and the code for it selected. -/
def armed (s : State) (est : Word) (rest : List Event) : State :=
  { s with inputs := rest, rdata := none, est := est, sel := s.cfg.selWord (s.cfg.selectCode est.toNat) }

theorem runSteps_arm {s : State} (hs : s.Ready) {est : Word} {rest : List Event}
    (h : s.inputs = armEvents s.cfg est rest) : runSteps 2 s = .next (armed s est rest) :=
  (runSteps_succ (step_est hs h)).trans (runSteps_succ (n := 0) (step_select hs rfl))

theorem programEvents_timed (c : Config) (cs : BitVec 3) (n : Nat) (rest : List Event) :
    programEvents c [.cmd .cfg, .cmd (.start cs), .workload n, .cmd .stop] ++ rest =
      commandWrite c (encode .cfg) :: timedEvents c cs n rest := by
  simp [programEvents, lineEvents, timedEvents]

theorem programEvents_measurement (c : Config) (est : Word) (n : Nat) (rest : List Event) :
    programEvents c (measurement est n) ++ rest =
      commandWrite c (encode .gsave) :: commandWrite c (encode .cfg) ::
        armEvents c est (timedEvents c 0 n (commandWrite c (encode .grest) :: rest)) := by
  simp [programEvents, measurement, expandPseudo, lineEvents, armEvents, timedEvents]

/-- The required sequence: the timed run at the selected code keeps SAVED, from which GREST restores GIE. -/
theorem runSteps_measurement {s : State} (hs : s.Ready) {est : Word} {n : Nat} {rest : List Event}
    (h : s.inputs = programEvents s.cfg (measurement est n) ++ rest) :
    ∃ t, runSteps (n + 7) s = .next t ∧ t.inputs = rest ∧ t.run = false ∧ t.gie = s.gie ∧ t.saved = s.gie ∧
      t.cs.toNat = s.cfg.selectCode est.toNat ∧ t.ticks.toNat = n / s.cfg.factor t.cs.toNat % 2 ^ s.cfg.width ∧
      (t.ovf = true ↔ 2 ^ s.cfg.width ≤ n / s.cfg.factor t.cs.toNat) := by
  rw [programEvents_measurement] at h
  generalize htimed : timedEvents s.cfg 0 n (commandWrite s.cfg (encode .grest) :: rest) = timed at h
  have ⟨hwf, hm, hr⟩ := hs
  obtain ⟨h1, hk⟩ := Config.selectCode_bounds hwf est.toNat
  have hsel := selCs_selWord hwf h1 hk
  have hbounds : 1 ≤ (selCs (s.cfg.selWord (s.cfg.selectCode est.toNat))).toNat ∧
      (selCs (s.cfg.selWord (s.cfg.selectCode est.toNat))).toNat ≤ s.cfg.k := hsel.symm ▸ ⟨h1, hk⟩
  have harm := runSteps_arm (s := windowOpened s (armEvents s.cfg est timed)) (est := est) (rest := timed) hs rfl
  obtain ⟨u, hrun, hinputs, hstopped, hcs, hticks, hwrap, hcfg, hrst, -, hsaved⟩ :=
    runSteps_timed (s := armed (windowOpened s (armEvents s.cfg est timed)) est timed) (cs := 0)
      hs (Nat.zero_le _) hbounds rfl rfl rfl htimed.symm
  have hgrest := step_grest (s := u) (rest := rest) ⟨hcfg ▸ hwf, hcfg ▸ hm, hrst.trans hr⟩ (hcfg ▸ hinputs)
  have hall : runSteps (2 + (2 + (n + 2 + 1))) s = _ :=
    calc runSteps (2 + (2 + (n + 2 + 1))) s
      _ = runSteps (2 + (n + 2 + 1)) (windowOpened s (armEvents s.cfg est timed)) := runSteps_add (runSteps_windowOpen hs h)
      _ = runSteps (n + 2 + 1) (armed _ est timed) := runSteps_add harm
      _ = runSteps 1 u := runSteps_add hrun
      _ = _ := runSteps_succ hgrest
  rw [show 2 + (2 + (n + 2 + 1)) = n + 7 by omega] at hall
  exact ⟨_, hall, rfl, hstopped, hsaved, hsaved, hcs ▸ hsel, hticks, hwrap⟩

end Sys2Proof.Machine

namespace Sys2Proof.Proofs

/-- Settles O52: CFG leaves nothing counted, and the timed run counts from there. -/
theorem cfgStartClocksStopMeasuresTheClockSteps : Obligations.CfgStartClocksStopMeasuresTheClockSteps := by
  intro s cs n rest hinv hs hcs h
  rw [programEvents_timed] at h
  obtain ⟨t, hrun, hinputs, ht⟩ := runSteps_timed (n := n) (rest := rest)
    (s := { s with inputs := timedEvents s.cfg cs n rest, rdata := none, run := false, cnt := 0, psc := 0, ovf := false })
    hs hcs (hinv.startCode_bounds hcs) rfl rfl rfl rfl
  exact ⟨t, (runSteps_succ (step_cfg hs h)).trans hrun, hinputs, ht.stopped, ht.code, ht.ticks, ht.wrap⟩

/-- Settles O53: the sequence is a timed run at the selected code, whose ticks stay below `2^W` up to the estimate. -/
theorem measurementSequenceMeasuresAndRestores : Obligations.MeasurementSequenceMeasuresAndRestores := by
  intro s est n rest hinv hs h
  obtain ⟨t, hrun, hinputs, hstopped, hgie, hsaved, hcode, hticks, hwrap⟩ := runSteps_measurement hs h
  refine ⟨t, hrun, hinputs, hstopped, hgie, hsaved, hcode, hticks, hwrap, fun hn he => ?_⟩
  exact noWrap_of_lt (hcode ▸ selected_ticks_lt hinv.params hn he) hticks hwrap

end Sys2Proof.Proofs
end

section
/-! SUPPORT. Proofs about what cannot be seen: a step does not depend on the status flags (10_state.md R37), on CNT and PSC but
for STOP and the clock (R38), or on F_CPU (00_scope.md R11). Each is one argument about overwriting a part of the state. -/

open Sys2Proof Sys2Proof.Machine

namespace Sys2Proof.Machine

/-! ### Steps from two states that differ in one part only -/

/-- Two outcomes agree but for the part of the state that `f` overwrites. -/
def Agree (f : State → State) (o o' : Host.Outcome State Fault Refusal) : Prop := mapNext f o = mapNext f o'

/-- `f` overwrites a part of the state that chooses no agent step and refuses none, and that no operation but the commands,
a read and the clock step depends on. -/
structure Overwrites (f : State → State) : Prop where
  wf : ∀ s, (f s).cfg.wf = s.cfg.wf
  base : ∀ s, (f s).cfg.base = s.cfg.base
  mapping : ∀ s, (f s).cfg.mapping = s.cfg.mapping
  codes : ∀ s, (f s).cfg.k = s.cfg.k
  lines : ∀ s, (f s).cfg.nIrq = s.cfg.nIrq
  rst : ∀ s, (f s).rst = s.rst
  again : ∀ s, f (f s) = f s
  inputs : ∀ s, (f s).inputs = s.inputs
  draws : ∀ s, (f s).draws = s.draws
  announced : ∀ s l, { f s with inputs := l, rdata := none } = f { s with inputs := l, rdata := none }
  drawn : ∀ s n, { f s with draws := n, rdata := none } = f { s with draws := n, rdata := none }
  drive : ∀ s v, f (drive v (f s)) = f (drive v s)
  setIll : ∀ s, f (setIll (f s)) = f (setIll s)
  est : ∀ (s : State) v, f { f s with est := v } = f { s with est := v }
  mul : ∀ (s : State) v, f { f s with mul := v } = f { s with mul := v }
  setLine : ∀ s l b, f (setLine l b (f s)) = f (setLine l b s)
  assert : ∀ s, f { resetRegisters (f s) with rst := true } = f { resetRegisters s with rst := true }
  release : ∀ s, f { f s with rst := false } = f { s with rst := false }

section

variable {f : State → State} (hf : Overwrites f) {s : State}

include hf

theorem Overwrites.nextEvent (s : State) : nextEvent (f s) = nextEvent s := by
  simp only [Machine.nextEvent, hf.inputs, hf.draws]

theorem Overwrites.afterEvent (s : State) : afterEvent (f s) = f (afterEvent s) := by
  cases h : s.inputs with
  | nil => simpa only [Machine.afterEvent, hf.inputs, hf.draws, h] using hf.drawn s (s.draws + 1)
  | cons e rest => simpa only [Machine.afterEvent, hf.inputs, h] using hf.announced s rest

theorem Overwrites.onRegister (hwf : s.cfg.wf = true) {addr n : Nat} (hw : inWindow s.cfg addr = true)
    {g : Reg → State → Host.Outcome State Fault Refusal}
    (h : ∀ r, n = 4 → addr = s.cfg.base + regOffset r → Agree f (g r (f s)) (g r s)) :
    Agree f (onRegister addr n (f s) g) (onRegister addr n s g) := by
  obtain ⟨hm, h'⟩ | ⟨hm, hn, h'⟩ | ⟨hm, rfl, r, rfl, h'⟩ := onRegister_cases hwf hw n g <;> rw [h']
  · simp [Machine.onRegister, hf.mapping, hm, Agree]
  · simp [Machine.onRegister, hf.mapping, hm, hn, Agree]
  · rw [← hf.base s, onRegister_reg ((hf.wf s).trans hwf) ((hf.mapping s).trans hm)]
    exact h r rfl rfl

theorem Overwrites.busRead {r : Reg} (h : readReg (f s) r = readReg s r) : Agree f (busRead r (f s)) (busRead r s) := by
  simp only [Agree, Machine.busRead, mapNext, h, hf.drive]

theorem Overwrites.busWrite {r : Reg} {v : Word}
    (hexec : ∀ i, r = .cmd → decode s.cfg.k v = .ok i → Agree f (exec i (f s)) (exec i s)) :
    Agree f (busWrite r v (f s)) (busWrite r v s) := by
  cases r
  case cmd =>
    obtain ⟨i, hi⟩ | ⟨e, he⟩ := decode_total s.cfg.k v
    · have hi' : decode (f s).cfg.k v = .ok i := (hf.codes s).symm ▸ hi
      simpa only [Machine.busWrite, perform_of_decode_ok hi, perform_of_decode_ok hi'] using hexec i rfl hi
    · have he' : decode (f s).cfg.k v = .error e := (hf.codes s).symm ▸ he
      simp only [Machine.busWrite, perform_of_decode_error he, perform_of_decode_error he']
      exact congrArg Host.Outcome.next (hf.setIll s)
  case est => exact congrArg Host.Outcome.next (hf.est s v)
  case mul => exact congrArg Host.Outcome.next (hf.mul s v)
  all_goals exact congrArg Host.Outcome.next (hf.setIll s)

theorem Overwrites.hostAccess (hwf : s.cfg.wf = true) {a : Access}
    (hread : ∀ r, a = .read (s.cfg.base + regOffset r) 4 → readReg (f s) r = readReg s r)
    (hexec : ∀ v i, a = .write (s.cfg.base + regOffset .cmd) 4 v → decode s.cfg.k v = .ok i →
      Agree f (exec i (f s)) (exec i s)) :
    Agree f (hostAccess a (f s)) (hostAccess a s) := by
  have hsame (addr : Nat) : inWindow (f s).cfg addr = inWindow s.cfg addr := by simp only [inWindow, hf.base]
  cases hw : inWindow s.cfg (accessAddr a) with
  | false => rw [hostAccess_outside hw, hostAccess_outside ((hsame _).trans hw)]; rfl
  | true =>
    cases hr : s.rst with
    | true => rw [hostAccess_of_rst hw hr, hostAccess_of_rst ((hsame _).trans hw) ((hf.rst s).trans hr)]; rfl
    | false =>
      simp only [Machine.hostAccess, hsame, hw, hf.rst, hr]
      cases a with
      | fetch addr => rfl
      | read addr n =>
        exact hf.onRegister hwf hw fun r hn ha => hf.busRead (hread r (congrArg₂ Access.read ha hn))
      | write addr n v =>
        refine hf.onRegister hwf hw fun r hn ha => hf.busWrite fun i hcmd hd => hexec v i ?_ hd
        obtain rfl := hcmd
        exact congrArg₂ (Access.write · · v) ha hn

theorem Overwrites.clockEdge (h : f (clockStep (f s)) = f (clockStep s)) : Agree f (clockEdge (f s)) (clockEdge s) := by
  simp only [Agree, Machine.clockEdge, hf.rst]
  cases s.rst
  · exact congrArg Host.Outcome.next h
  · exact congrArg Host.Outcome.next (hf.again s)

/-- A step does not depend on what `f` overwrites, if the read, the command or the clock step it performs does not. -/
theorem Overwrites.step
    (hread : ∀ r, Machine.nextEvent s = .host (.read (s.cfg.base + regOffset r) 4) → ∀ u, readReg (f u) r = readReg u r)
    (hexec : ∀ i, performs s i → ∀ u, Agree f (exec i (f u)) (exec i u))
    (hclock : Machine.nextEvent s = .clock → ∀ u, f (clockStep (f u)) = f (clockStep u)) :
    Agree f (step (f s)) (step s) := by
  cases hwf : s.cfg.wf with
  | false => rw [step_of_not_wf hwf, step_of_not_wf ((hf.wf s).trans hwf)]; rfl
  | true =>
    rw [step_of_wf hwf, step_of_wf ((hf.wf s).trans hwf), hf.nextEvent, hf.afterEvent]
    cases he : Machine.nextEvent s with
    | clock => exact hf.clockEdge (hclock he _)
    | rst b =>
      cases b
      · exact congrArg Host.Outcome.next (hf.release _)
      · exact congrArg Host.Outcome.next (hf.assert _)
    | irq l b =>
      simp only [performEvent, driveLine, hf.lines]
      split
      · exact congrArg Host.Outcome.next (hf.setLine _ l b)
      · rfl
    | host a =>
      refine hf.hostAccess (by simpa using hwf) (fun r ha => hread r ?_ _) (fun v i ha hd => hexec i ⟨v, ?_, ?_⟩ _)
      · rw [he, ha, afterEvent_cfg]
      · rw [writes, he, ha, afterEvent_cfg]
      · rwa [afterEvent_cfg] at hd

end

/-! ### The three parts that are overwritten -/

/-- Overwrite the status flags. -/
def withFlags (o a l : Bool) (s : State) : State := { s with ovf := o, sat := a, ill := l }

/-- Overwrite the count and the phase. -/
def withCount (c : CounterWord) (p : BitVec 16) (s : State) : State := { s with cnt := c, psc := p }

/-- Overwrite the clock frequency. -/
def withFrequency (f : Nat) (s : State) : State := { s with cfg := { s.cfg with fCpu := f } }

theorem withFlags_overwrites (o a l : Bool) : Overwrites (withFlags o a l) := by
  constructor <;> intros <;> rfl

theorem withCount_overwrites (c : CounterWord) (p : BitVec 16) : Overwrites (withCount c p) := by
  constructor <;> intros <;> rfl

theorem withFrequency_overwrites (f : Nat) : Overwrites (withFrequency f) := by
  constructor <;> intros <;> rfl

/-! ### What the commands, the reads and the clock step make of them -/

theorem exec_withFlags (o a l : Bool) (i : Instr) (s : State) :
    Agree (withFlags o a l) (exec i (withFlags o a l s)) (exec i s) := by
  cases i <;> rfl

theorem readReg_withFlags (o a l : Bool) {r : Reg} (hr : r ≠ .status) (s : State) :
    readReg (withFlags o a l s) r = readReg s r := by
  cases r
  case status => exact absurd rfl hr
  all_goals rfl

theorem clockStep_withFlags (o a l : Bool) (s : State) :
    withFlags o a l (clockStep (withFlags o a l s)) = withFlags o a l (clockStep s) := by
  dsimp only [clockStep, tick, withFlags]
  split_ifs <;> rfl

theorem exec_withCount (c : CounterWord) (p : BitVec 16) {i : Instr} (hi : i ≠ .stop) (s : State) :
    Agree (withCount c p) (exec i (withCount c p s)) (exec i s) := by
  cases i
  case stop => exact absurd rfl hi
  all_goals rfl

theorem readReg_withCount (c : CounterWord) (p : BitVec 16) (r : Reg) (s : State) :
    readReg (withCount c p s) r = readReg s r := by
  cases r <;> rfl

theorem exec_withFrequency (f : Nat) (i : Instr) (s : State) :
    Agree (withFrequency f) (exec i (withFrequency f s)) (exec i s) := by
  cases i <;> rfl

theorem readReg_withFrequency (f : Nat) (r : Reg) (s : State) : readReg (withFrequency f s) r = readReg s r := by
  cases r <;> rfl

theorem clockStep_withFrequency (f : Nat) (s : State) :
    clockStep (withFrequency f s) = withFrequency f (clockStep s) := by
  obtain ⟨hrun, h⟩ | ⟨hrun, hpsc, h⟩ | ⟨hrun, hpsc, hcnt, h⟩ | ⟨hrun, hpsc, hcnt, h⟩ := clockStep_cases s <;> rw [h]
  · exact clockStep_of_stopped hrun
  · exact clockStep_of_psc_lt hrun hpsc
  · exact clockStep_of_cnt_eq_cap hrun hpsc hcnt
  · exact clockStep_of_cnt_ne_cap hrun hpsc hcnt

/-- A step keeps the parameters, so it keeps a frequency that has been written. -/
theorem mapNext_step_withFrequency (f : Nat) (s : State) :
    mapNext (withFrequency f) (step (withFrequency f s)) = step (withFrequency f s) := by
  cases h : step (withFrequency f s) with
  | next t =>
    obtain ⟨hcfg, -⟩ := step_plumbing h
    have hkept : ({ t.cfg with fCpu := f } : Config) = t.cfg := by rw [hcfg]; rfl
    exact congrArg (fun c => Host.Outcome.next { t with cfg := c }) hkept
  | fault _ => rfl
  | refused _ => rfl

end Sys2Proof.Machine

namespace Sys2Proof.Proofs

/-- Settles O41: the flags are read by a read of STATUS only, and the output reads none. -/
theorem noStepReadsTheStatusFlags : Obligations.NoStepReadsTheStatusFlags := by
  refine ⟨fun s o a l hne => ?_, fun _ _ _ _ _ => rfl⟩
  refine (withFlags_overwrites o a l).step (fun r he u => readReg_withFlags o a l ?_ u)
    (fun i _ u => exec_withFlags o a l i u) fun _ u => clockStep_withFlags o a l u
  rintro rfl
  exact hne he

/-- Settles O50: CNT is captured by STOP only, PSC by no command, and no register shows them. -/
theorem countAndPhaseAreHidden : Obligations.CountAndPhaseAreHidden := by
  intro s c p hclock hstop
  refine (withCount_overwrites c p).step (fun r _ u => readReg_withCount c p r u)
    (fun i hp u => exec_withCount c p ?_ u) fun he => absurd he hclock
  rintro rfl
  exact hstop hp

/-- Settles O51: no operation reads the frequency, and the step keeps the one that is written. -/
theorem noStepReadsTheClockFrequency : Obligations.NoStepReadsTheClockFrequency := by
  intro s f
  have hf := withFrequency_overwrites f
  refine (mapNext_step_withFrequency f s).symm.trans ?_
  exact hf.step (fun r _ u => readReg_withFrequency f r u) (fun i _ u => exec_withFrequency f i u)
    fun _ u => (congrArg (withFrequency f) (clockStep_withFrequency f u)).trans (hf.again _)

end Sys2Proof.Proofs
end
